-- ==== Sys2Proof/Word.lean ====
section
/-! DEFINITION. The word types of the core (00_scope.md R8, R10): bytes of memory and registers, 16-bit words
of the index register, the program counter, the stack entries and the opcode, and the number of a register. -/

namespace Sys2Proof

/-- A byte of memory, a general register or a timer (V_WIDTH, TIMER_WIDTH, SP_WIDTH). -/
abbrev Byte := BitVec 8

/-- An opcode, or a value of I, pc or a stack entry (I_WIDTH, PC_WIDTH, STACK_ENTRY_WIDTH). -/
abbrev Word := BitVec 16

/-- A 4-bit field of an opcode used as a number (the row count n of Dxyn). -/
abbrev Nibble := BitVec 4

/-- The 12-bit address field nnn. -/
abbrev Addr12 := BitVec 12

/-- The number of a general register, 0x0 to 0xF (NUM_V); register 15 is VF. -/
abbrev Reg := Fin 16

/-- The framebuffer's 64 by 32 grid of pixel bits (SCREEN_W, SCREEN_H; 10_state.md R30): row r, top to bottom,
holds the pixel of column c in bit c. -/
abbrev Frame := Vector (BitVec 64) 32

end Sys2Proof
end

