-- ==== Sys2Proof/Config.lean ====
section
/-! DEFINITION. What is fixed for the machine and what is left free (00_scope.md R8, R9): the sizes the rules
use, the FONT parameter and its default, the reset contents of memory, and the free random byte. -/

namespace Sys2Proof

/-- MEM_SIZE: addresses 0x000 to 0xFFF. -/
@[simp] abbrev Config.memSize : Nat := 4096

/-- PROG_BASE: where a ROM is loaded and where pc starts. -/
@[simp] abbrev Config.progBase : Nat := 0x200

/-- FONT_BASE: the address of the first font glyph. -/
@[simp] abbrev Config.fontBase : Nat := 0x050

/-- GLYPH_BYTES: bytes per glyph. -/
@[simp] abbrev Config.glyphBytes : Nat := 5

/-- MAX_ROM: 4096 - 0x200. -/
@[simp] abbrev Config.maxRom : Nat := 3584

/-- STACK_DEPTH: entries of the call stack. -/
@[simp] abbrev Config.stackDepth : Nat := 16

/-- The parameter FONT (00_scope.md R9, 10_state.md R33): 16 glyphs of 5 bytes, glyph 0 first, top row first.
Construction takes it as an argument (`Machine.State.resetWith`). -/
abbrev FontTable := Vector Byte 80

/-- The default of FONT (10_state.md R33), one glyph after the other. -/
def Config.defaultFontBytes : List Byte :=
  [0xF0, 0x90, 0x90, 0x90, 0xF0] ++ [0x20, 0x60, 0x20, 0x20, 0x70] ++
  [0xF0, 0x10, 0xF0, 0x80, 0xF0] ++ [0xF0, 0x10, 0xF0, 0x10, 0xF0] ++
  [0x90, 0x90, 0xF0, 0x10, 0x10] ++ [0xF0, 0x80, 0xF0, 0x10, 0xF0] ++
  [0xF0, 0x80, 0xF0, 0x90, 0xF0] ++ [0xF0, 0x10, 0x20, 0x40, 0x40] ++
  [0xF0, 0x90, 0xF0, 0x90, 0xF0] ++ [0xF0, 0x90, 0xF0, 0x10, 0xF0] ++
  [0xF0, 0x90, 0xF0, 0x90, 0x90] ++ [0xE0, 0x90, 0xE0, 0x90, 0xE0] ++
  [0xF0, 0x80, 0x80, 0x80, 0xF0] ++ [0xE0, 0x90, 0x90, 0x90, 0xE0] ++
  [0xF0, 0x80, 0xF0, 0x80, 0xF0] ++ [0xF0, 0x80, 0xF0, 0x80, 0x80]

/-- FONT at its default. -/
def Config.defaultFont : FontTable := ⟨Config.defaultFontBytes.toArray, rfl⟩

/-- What memory holds at reset with the default FONT (10_state.md R38), which is what an address the memory does
not list reads as: the default FONT at 0x050 to 0x09F, zero elsewhere. A core constructed with another FONT lists
the bytes in which it differs. DESIGN CHOICE (log 1): `State.reset` is the construction with the default. unsafe. -/
def Config.resetByte (a : Nat) : Byte :=
  if Config.fontBase ≤ a then Config.defaultFont[a - Config.fontBase]?.getD 0 else 0

/-- The byte RAND of the k-th draw (00_scope.md R9, 10_state.md R35): a free value, any byte each time.
DESIGN CHOICE (log 2): the free input is this constant without a body, applied to a counter of the state. safe. -/
opaque Config.rand : Nat → Byte

end Sys2Proof
end

