-- ==== Sys2Proof/Syntax.lean ====
section
/-! DEFINITION. The instructions (30_encoding.md R84, R94): one constructor per row of spec/opcode_table.json,
named after the row, with the operand fields its format gives it (R82). Bits the decoder ignores are no operand. -/

namespace Sys2Proof

/-- A decoded instruction. The constructor op<pattern> is the table's row <pattern>. -/
inductive Instr where
  /-- clear the framebuffer -/
  | op00E0
  /-- return from subroutine -/
  | op00EE
  /-- jump -/
  | op1nnn (nnn : Addr12)
  /-- call subroutine -/
  | op2nnn (nnn : Addr12)
  /-- skip if Vx equals nn -/
  | op3xnn (x : Reg) (nn : Byte)
  /-- skip if Vx does not equal nn -/
  | op4xnn (x : Reg) (nn : Byte)
  /-- skip if Vx equals Vy -/
  | op5xy0 (x y : Reg)
  /-- load immediate -/
  | op6xnn (x : Reg) (nn : Byte)
  /-- add immediate, no carry flag -/
  | op7xnn (x : Reg) (nn : Byte)
  /-- copy register -/
  | op8xy0 (x y : Reg)
  /-- bitwise OR -/
  | op8xy1 (x y : Reg)
  /-- bitwise AND -/
  | op8xy2 (x y : Reg)
  /-- bitwise XOR -/
  | op8xy3 (x y : Reg)
  /-- add with carry flag -/
  | op8xy4 (x y : Reg)
  /-- subtract Vy from Vx -/
  | op8xy5 (x y : Reg)
  /-- shift Vy right by one into Vx -/
  | op8xy6 (x y : Reg)
  /-- subtract Vx from Vy into Vx -/
  | op8xy7 (x y : Reg)
  /-- shift Vy left by one into Vx -/
  | op8xyE (x y : Reg)
  /-- skip if Vx does not equal Vy -/
  | op9xy0 (x y : Reg)
  /-- load index register -/
  | opAnnn (nnn : Addr12)
  /-- jump with offset V0 -/
  | opBnnn (nnn : Addr12)
  /-- random byte masked by nn -/
  | opCxnn (x : Reg) (nn : Byte)
  /-- draw an n-row sprite at (Vx, Vy) -/
  | opDxyn (x y : Reg) (n : Nibble)
  /-- skip if the key numbered Vx is pressed -/
  | opEx9E (x : Reg)
  /-- skip if the key numbered Vx is not pressed -/
  | opExA1 (x : Reg)
  /-- read the delay timer -/
  | opFx07 (x : Reg)
  /-- wait for a key, by re-execution -/
  | opFx0A (x : Reg)
  /-- set the delay timer -/
  | opFx15 (x : Reg)
  /-- set the sound timer -/
  | opFx18 (x : Reg)
  /-- add Vx to the index register -/
  | opFx1E (x : Reg)
  /-- point the index register at the font glyph of Vx -/
  | opFx29 (x : Reg)
  /-- store the BCD digits of Vx -/
  | opFx33 (x : Reg)
  /-- store V0 to Vx in memory, then advance I -/
  | opFx55 (x : Reg)
  /-- load V0 to Vx from memory, then advance I -/
  | opFx65 (x : Reg)
  /-- the no-op handler, selected by the unrecognized word `word` (R90); the word is kept so that no bit of
  the encoding is lost, and the handler has no operand -/
  | opNOP (word : Word)
  deriving DecidableEq, Repr

/-- A row of the opcode map (30_encoding.md R94): a word w selects it when `w &&& mask = pattern`. -/
structure OpcodeRow where
  mnemonic : String
  pattern : Word
  mask : Word
  deriving DecidableEq, Repr

/-- The row of spec/opcode_table.json an instruction belongs to. -/
def Instr.mnemonic : Instr → String
  | .op00E0 => "00E0"
  | .op00EE => "00EE"
  | .op1nnn _ => "1nnn"
  | .op2nnn _ => "2nnn"
  | .op3xnn _ _ => "3xnn"
  | .op4xnn _ _ => "4xnn"
  | .op5xy0 _ _ => "5xy0"
  | .op6xnn _ _ => "6xnn"
  | .op7xnn _ _ => "7xnn"
  | .op8xy0 _ _ => "8xy0"
  | .op8xy1 _ _ => "8xy1"
  | .op8xy2 _ _ => "8xy2"
  | .op8xy3 _ _ => "8xy3"
  | .op8xy4 _ _ => "8xy4"
  | .op8xy5 _ _ => "8xy5"
  | .op8xy6 _ _ => "8xy6"
  | .op8xy7 _ _ => "8xy7"
  | .op8xyE _ _ => "8xyE"
  | .op9xy0 _ _ => "9xy0"
  | .opAnnn _ => "Annn"
  | .opBnnn _ => "Bnnn"
  | .opCxnn _ _ => "Cxnn"
  | .opDxyn _ _ _ => "Dxyn"
  | .opEx9E _ => "Ex9E"
  | .opExA1 _ => "ExA1"
  | .opFx07 _ => "Fx07"
  | .opFx0A _ => "Fx0A"
  | .opFx15 _ => "Fx15"
  | .opFx18 _ => "Fx18"
  | .opFx1E _ => "Fx1E"
  | .opFx29 _ => "Fx29"
  | .opFx33 _ => "Fx33"
  | .opFx55 _ => "Fx55"
  | .opFx65 _ => "Fx65"
  | .opNOP _ => "NOP"

end Sys2Proof
end

