-- ==== Sys2Proof/Machine/State.lean ====
section
/-! DEFINITION. The state of the core as plain data (10_state.md R20), its reset values (R38), the fault causes
(60_exceptions.md R200, R201), and the two closed types of reasons for which a step of the model can stop. -/

namespace Sys2Proof.Machine

/-- Memory (20_memory.md R60): the cells that differ from the reset contents, by strictly rising address. -/
abbrev Memory := List Host.Cell

/-- The canonical form of memory: addresses strictly rising, every address one of the 4096 that exist, and no
cell equal to what its address reads as when it is not listed. -/
abbrev Memory.wf (m : Memory) : Prop :=
  m.Pairwise (fun c d => c.1 < d.1) ∧ ∀ c ∈ m, c.1 < Config.memSize ∧ c.2 ≠ Config.resetByte c.1

/-- A fault cause with the info recorded with it (60_exceptions.md R200, R201). -/
inductive Cause where
  /-- code 1: the pc that could not be fetched -/
  | fetchOutOfRange (pc : Word)
  /-- code 2: the first data address above 0xFFF -/
  | memoryOutOfRange (addr : Word)
  /-- code 3: a call with 16 entries in use -/
  | stackOverflow
  /-- code 4: a return with no entry in use -/
  | stackUnderflow
  /-- code 5: the key index Vx above 0xF -/
  | keyIndexOutOfRange (key : Byte)
  deriving DecidableEq, Repr

/-- The state of the core: the elements of 10_state.md R20, then two fields of the model's own. -/
structure State where
  /-- the 4096 bytes of memory (R60) -/
  mem : Memory
  /-- V0 to VF (R21); V[15] is the flag register VF (R22) -/
  v : Vector Byte 16
  /-- the index register I (R23) -/
  index : Word
  /-- the program counter (R24) -/
  pc : Word
  /-- the call stack (R25) -/
  stack : Vector Word 16
  /-- the number of stack entries in use (R26) -/
  sp : Byte
  /-- the delay timer DT (R27) -/
  dt : Byte
  /-- the sound timer ST (R28) -/
  st : Byte
  /-- the keypad, true for pressed (R29) -/
  keys : Vector Bool 16
  /-- the framebuffer: pixel (c, r) is bit c of row r (R30) -/
  fb : Frame
  /-- the word the last Cycle() fetched (R31) -/
  opcode : Word
  /-- none, or the cause of the fault that stopped the core (R34) -/
  fault : Option Cause
  /-- MODEL's own: how many random bytes have been drawn, the index of the next free value (log 2) -/
  draws : Nat
  /-- MODEL's own: the UnknownOpcode events emitted so far, oldest first (R41, log 3) -/
  diag : List Word
  deriving DecidableEq, Repr

/-- Construction with the default FONT (10_state.md R37, R38; 70_reset_and_hazards.md R230, R231; log 1). Memory
lists nothing, so it reads as its reset contents. `State.resetWith` is the construction with any FONT. The values of `draws` and `diag` are the model's own.
DESIGN CHOICE (log 2, log 3): both start empty. safe. -/
def State.reset : State :=
  { mem := []
    v := Vector.replicate 16 0
    index := 0x0000
    pc := 0x0200
    stack := Vector.replicate 16 0
    sp := 0
    dt := 0
    st := 0
    keys := Vector.replicate 16 false
    fb := Vector.replicate 32 0
    opcode := 0x0000
    fault := none
    draws := 0
    diag := [] }

/-- What the start of a Cycle() leads to. -/
inductive Fetched where
  /-- the Cycle() is over in this state: the core was faulted, or the fetch raised -/
  | ended (s : State)
  /-- the fetch and the advance are done, and this instruction's handler runs next -/
  | handler (i : Instr) (s : State)
  deriving DecidableEq, Repr

/-- Why the model stops. Every fault of the spec is a NEXT state instead, with the `fault` register written. -/
inductive Fault where
  /-- Raised by the meaning of 00EE when sp is above 16, where the entry stack[sp - 1] does not exist
  (10_state.md R25, R26). No run reaches such a state. DESIGN CHOICE (log 4). safe: the model stops. -/
  | stackEntryMissing
  deriving DecidableEq, Repr

/-- Why an instruction or a host action has no meaning in the model. -/
inductive Refusal where
  /-- An instruction whose arm has no meaning; no arm of exec answers it now. safe: the model stops. -/
  | notModelled (mnemonic : String)
  /-- A host action before the first `reset` (60_exceptions.md R214: the host must reset before anything else).
  Raised by `act` only. DESIGN CHOICE (log 6). safe: the model stops. -/
  | notReset
  /-- A `load_rom` that is not the first one after `reset` or comes after a `cycle`: not modelled by the spec
  itself (D24). Raised by `act` only. DESIGN CHOICE (log 6). safe: the model stops. -/
  | loadRomOutOfOrder
  deriving DecidableEq, Repr

end Sys2Proof.Machine
end

