-- ==== Sys2Proof/Machine/Ops.lean ====
section
/-! DEFINITION. The named operations over memory, the registers, the stack and the framebuffer, the range check
of data accesses, and taking a fault (60_exceptions.md R202), which is one shared operation. There is no return
from a fault: only the host's reset clears it (R204). -/

namespace Sys2Proof.Machine

/-! ## Memory (20_memory.md) -/

/-- One byte of memory: the listed cell, or the reset contents of the address. -/
def Memory.read : Memory → Nat → Byte
  | [], a => Config.resetByte a
  | c :: m, a => if c.1 = a then c.2 else Memory.read m a

/-- Memory with no cell for the address: it reads as its reset contents. -/
def Memory.erase (m : Memory) (a : Nat) : Memory := m.filter (fun c => c.1 != a)

/-- A cell put before the first cell of a higher address. -/
def Memory.insert (a : Nat) (b : Byte) : Memory → Memory
  | [] => [(a, b)]
  | c :: m => if a < c.1 then (a, b) :: c :: m else c :: Memory.insert a b m

/-- A write of one byte (R68), keeping the canonical form: the reset contents are never listed. -/
def Memory.write (m : Memory) (a : Nat) (b : Byte) : Memory :=
  if b = Config.resetByte a then m.erase a else Memory.insert a b (m.erase a)

/-- `MemRead(a, 1)` of 00_scope.md R11. -/
def State.readByte (s : State) (a : Nat) : Byte := s.mem.read a

/-- `MemWrite(a, 1, b)` of 00_scope.md R11. -/
def State.writeByte (s : State) (a : Nat) (b : Byte) : State := { s with mem := s.mem.write a b }

/-- Bytes written one after the other from an address on, in ascending order. -/
def State.writeBytes (s : State) (a : Nat) : List Byte → State
  | [] => s
  | b :: bs => (s.writeByte a b).writeBytes (a + 1) bs

/-! ## Taking a fault (60_exceptions.md) -/

/-- The cause code of R200. -/
def Cause.code : Cause → Nat
  | .fetchOutOfRange _ => 1
  | .memoryOutOfRange _ => 2
  | .stackOverflow => 3
  | .stackUnderflow => 4
  | .keyIndexOutOfRange _ => 5

/-- The code of the `fault` register: 0 for none. -/
def State.faultCode (s : State) : Nat :=
  match s.fault with
  | none => 0
  | some c => c.code

/-- `raise F(info)` (R202): the cause is recorded, and nothing else changes. There is no vector, no saved
register, no mode and no push. The meaning that raises ends there. -/
def State.raise (s : State) (c : Cause) : State := { s with fault := some c }

/-- `CheckMem(a, n)` (20_memory.md R64): the first of the n addresses from a on that is above 0xFFF. -/
def checkMem (a n : Nat) : Option Nat := ((List.range n).map (a + ·)).find? (fun b => 0xFFF < b)

/-- A data instruction's access to the n bytes from I on (R63, R64): raise MemoryOutOfRange with the first
address out of range, or go on to the state `t` that performs all the accesses (40_cycle_and_dispatch.md R118). -/
def checkedAccess (s : State) (n : Nat) (t : State) : Host.Outcome State Fault Refusal :=
  match checkMem s.index.toNat n with
  | some a => .next (s.raise (.memoryOutOfRange (BitVec.ofNat 16 a)))
  | none => .next t

/-! ## Registers (10_state.md R21, R24) -/

/-- `V[r]`. No register is hardwired. -/
def State.getV (s : State) (r : Reg) : Byte := s.v[r.val]

/-- `V[r] <- b`. -/
def State.setV (s : State) (r : Reg) (b : Byte) : State := { s with v := s.v.set r.val b }

/-- The number of VF, the flag register (R22). -/
def vf : Reg := 15

/-- `pc <- target`. -/
def State.setPc (s : State) (target : Word) : State := { s with pc := target }

/-- `I <- w`. -/
def State.setIndex (s : State) (w : Word) : State := { s with index := w }

/-- A taken skip: `pc <- trunc_16(pc + 2)` on top of the advance (43_skips.md). -/
def State.skipIf (s : State) (taken : Bool) : State := if taken then s.setPc (s.pc + 2) else s

/-! ## The call stack (10_state.md R25, R26) -/

/-- `stack[k]`, for the sixteen entries that exist. -/
def State.stackEntry (s : State) (k : Nat) : Option Word := s.stack[k]?

/-- `stack[k] <- w`; k is below 16 wherever a meaning uses it. -/
def State.setStackEntry (s : State) (k : Nat) (w : Word) : State :=
  { s with stack := s.stack.setIfInBounds k w }

/-! ## The framebuffer (10_state.md R30) -/

/-- Whether pixel (c, r) of a frame is on. -/
def Frame.pixel (fb : Frame) (c r : Nat) : Bool := if h : r < 32 then fb[r].getLsbD c else false

/-- `FB[c, r] <- FB[c, r] XOR 1`. -/
def Frame.toggle (fb : Frame) (c r : Nat) : Frame :=
  if h : r < 32 then fb.set r (fb[r] ^^^ BitVec.twoPow 64 c) else fb

/-- Every pixel off. -/
def Frame.clear : Frame := Vector.replicate 32 0

/-- The pixel at a flat index of the framebuffer: index r * 64 + c is pixel (c, r) (R30, D13). -/
def Frame.flatPixel (fb : Frame) (k : Nat) : Bool := Frame.pixel fb (k % 64) (k / 64)

/-- `FB[c, r]`. -/
def State.pixel (s : State) (c r : Nat) : Bool := Frame.pixel s.fb c r

/-! ## Fetch and advance (40_cycle_and_dispatch.md R111, R112) -/

/-- The bytes at pc and pc + 1, big-endian; none when pc + 1 is above 0xFFF. -/
def State.fetchWord (s : State) : Option Word :=
  if 0xFFF < s.pc.toNat + 1 then none
  else some (s.readByte s.pc.toNat ++ s.readByte (s.pc.toNat + 1))

/-- The fetched word in `opcode`, and the advance `pc <- trunc_16(pc + 2)`. -/
def State.advance (s : State) (w : Word) : State := { s with opcode := w, pc := s.pc + 2 }

end Sys2Proof.Machine
end

