-- ==== Sys2Proof/Machine/Flags.lean ====
section
/-! DEFINITION. The 8-bit arithmetic of 44_register_alu.md R160 and the values written to VF as a flag
(10_state.md R22). Results are computed exactly and then narrowed. -/

namespace Sys2Proof.Machine

/-- A condition as the byte 1 or 0. -/
def flagByte (c : Bool) : Byte := if c then 1 else 0

/-- The widened sum, 0 to 510. -/
def wideSum (a b : Byte) : Nat := a.toNat + b.toNat

/-- `trunc_8(a + b)`. -/
def add8 (a b : Byte) : Byte := BitVec.ofNat 8 (wideSum a b)

/-- `trunc_8(a - b + 256)`. -/
def sub8 (a b : Byte) : Byte := BitVec.ofNat 8 (a.toNat + 256 - b.toNat)

/-- The carry of 8xy4: 1 if the sum exceeds 255. -/
def carryFlag (a b : Byte) : Byte := flagByte (255 < wideSum a b)

/-- The no-borrow flag of 8xy5 and 8xy7: 1 if the minuend is strictly greater (C3). -/
def noBorrowFlag (minuend subtrahend : Byte) : Byte := flagByte (subtrahend.toNat < minuend.toNat)

/-- `zext_8(b[0])`, the bit 8xy6 shifts out. -/
def shiftedOutRight (b : Byte) : Byte := flagByte (b.getLsbD 0)

/-- `zext_8(b[7])`, the bit 8xyE shifts out. -/
def shiftedOutLeft (b : Byte) : Byte := flagByte (b.getLsbD 7)

/-- `b >> 1`, a zero shifted in. -/
def shr1 (b : Byte) : Byte := b >>> 1

/-- `trunc_8(b << 1)`, a zero shifted in. -/
def shl1 (b : Byte) : Byte := b <<< 1

end Sys2Proof.Machine
end

