-- ==== Sys2Proof/Machine/Operands.lean ====
section
/-! DEFINITION. The operand forms: the zero-extended immediates (30_encoding.md R83), the index-plus-offset
address (20_memory.md R63), the register ranges of Fx55 and Fx65, the decimal digits of Fx33, the key operands,
and the pixels of a Dxyn sprite. -/

namespace Sys2Proof.Machine

/-- `zext_16(nnn)`. -/
def zextAddr (nnn : Addr12) : Word := nnn.setWidth 16

/-- `zext_16(b)` of a byte. -/
def zextByte (b : Byte) : Word := b.setWidth 16

/-- The data address I + k, an unbounded natural number (R63). -/
def State.indexAddr (s : State) (k : Nat) : Nat := s.index.toNat + k

/-! ## Register ranges (45_index_memory.md R184, R185) -/

/-- The registers V0 to Vx, ascending. -/
def regsUpTo (x : Reg) : List Reg := (List.finRange 16).filter (· ≤ x)

/-- The bytes of V0 to Vx. -/
def State.regBytes (s : State) (x : Reg) : List Byte := (regsUpTo x).map s.getV

/-- `for k from 0 to x: V[k] <- MemRead(I + k, 1)`. -/
def State.loadRegs (s : State) (x : Reg) : State :=
  (regsUpTo x).foldl (fun t k => t.setV k (s.readByte (s.indexAddr k.val))) s

/-- `I <- trunc_16(I + x + 1)`. -/
def State.advanceIndex (s : State) (x : Reg) : State :=
  s.setIndex (BitVec.ofNat 16 (s.index.toNat + x.val + 1))

/-! ## Decimal digits (45_index_memory.md R183) -/

/-- The hundreds, tens and ones of a byte. -/
def bcdDigits (b : Byte) : List Byte :=
  [BitVec.ofNat 8 (b.toNat / 100), BitVec.ofNat 8 (b.toNat / 10 % 10), BitVec.ofNat 8 (b.toNat % 10)]

/-! ## Keys (46_random_timer_keypad.md R191, R192, R194) -/

/-- `Key[b]`, for the sixteen keys that exist. -/
def State.key (s : State) (b : Byte) : Option Bool := s.keys[b.toNat]?

/-- The least pressed key, in a scan of 0 to 15 in order. -/
def State.firstPressed (s : State) : Option Reg := (List.finRange 16).find? (fun k => s.keys[k.val])

/-! ## Sprites (41_display.md R131) -/

/-- A frame while it is drawn on, with the value of VF so far. -/
abbrev Canvas := Frame × Byte

/-- One sprite bit of 1 at column c and row r: off the screen nothing happens (clipping); on it, a pixel that is
on sets VF to 1, and the pixel is toggled. -/
def plot (p : Canvas) (c r : Nat) : Canvas :=
  if c < 64 ∧ r < 32 then (Frame.toggle p.1 c r, if Frame.pixel p.1 c r then 1 else p.2) else p

/-- The eight bits of a sprite byte, bit 7 at column cx. -/
def plotRow (p : Canvas) (b : Byte) (cx r : Nat) : Canvas :=
  (List.range 8).foldl (fun q col => if b.getLsbD (7 - col) then plot q (cx + col) r else q) p

/-- The n rows of the sprite at I, drawn from (cx, cy) on. -/
def State.plotSprite (s : State) (p : Canvas) (cx cy n : Nat) : Canvas :=
  (List.range n).foldl (fun q row => plotRow q (s.readByte (s.indexAddr row)) cx (cy + row)) p

/-- The start column of Dxyn: Vx wraps modulo the screen width. -/
def State.startCol (s : State) (x : Reg) : Nat := (s.getV x).toNat % 64

/-- The start row of Dxyn: Vy wraps modulo the screen height (C2). -/
def State.startRow (s : State) (y : Reg) : Nat := (s.getV y).toNat % 32

end Sys2Proof.Machine
end

