-- ==== Sys2Proof/Machine/Alu.lean ====
section
/-! DEFINITION. Register loads and the arithmetic ALU (44_register_alu.md). Where a flag is written, it is
written first, and the result reads the registers after that write (40_cycle_and_dispatch.md R117); 8xy4 alone
computes its sum before. -/

namespace Sys2Proof.Machine

/-- 6xnn (R161). -/
def exec6xnn (x : Reg) (nn : Byte) (s : State) : Host.Outcome State Fault Refusal := .next (s.setV x nn)

/-- 7xnn (R162): no carry flag. -/
def exec7xnn (x : Reg) (nn : Byte) (s : State) : Host.Outcome State Fault Refusal :=
  .next (s.setV x (add8 (s.getV x) nn))

/-- 8xy0 (R163). -/
def exec8xy0 (x y : Reg) (s : State) : Host.Outcome State Fault Refusal := .next (s.setV x (s.getV y))

/-- 8xy1 (R164). -/
def exec8xy1 (x y : Reg) (s : State) : Host.Outcome State Fault Refusal :=
  .next (s.setV x (s.getV x ||| s.getV y))

/-- 8xy2 (R165). -/
def exec8xy2 (x y : Reg) (s : State) : Host.Outcome State Fault Refusal :=
  .next (s.setV x (s.getV x &&& s.getV y))

/-- 8xy3 (R166). -/
def exec8xy3 (x y : Reg) (s : State) : Host.Outcome State Fault Refusal :=
  .next (s.setV x (s.getV x ^^^ s.getV y))

/-- 8xy4 (R167): the sum is taken before the flag write. -/
def exec8xy4 (x y : Reg) (s : State) : Host.Outcome State Fault Refusal :=
  let sum := add8 (s.getV x) (s.getV y)
  .next ((s.setV vf (carryFlag (s.getV x) (s.getV y))).setV x sum)

/-- 8xy5 (R168): Vx - Vy, read after the flag write. -/
def exec8xy5 (x y : Reg) (s : State) : Host.Outcome State Fault Refusal :=
  let t := s.setV vf (noBorrowFlag (s.getV x) (s.getV y))
  .next (t.setV x (sub8 (t.getV x) (t.getV y)))

/-- 8xy6 (R169): the source is Vy, read again after the flag write. -/
def exec8xy6 (x y : Reg) (s : State) : Host.Outcome State Fault Refusal :=
  let t := s.setV vf (shiftedOutRight (s.getV y))
  .next (t.setV x (shr1 (t.getV y)))

/-- 8xy7 (R170): Vy - Vx, read after the flag write. -/
def exec8xy7 (x y : Reg) (s : State) : Host.Outcome State Fault Refusal :=
  let t := s.setV vf (noBorrowFlag (s.getV y) (s.getV x))
  .next (t.setV x (sub8 (t.getV y) (t.getV x)))

/-- 8xyE (R171): the source is Vy, read again after the flag write. -/
def exec8xyE (x y : Reg) (s : State) : Host.Outcome State Fault Refusal :=
  let t := s.setV vf (shiftedOutLeft (s.getV y))
  .next (t.setV x (shl1 (t.getV y)))

end Sys2Proof.Machine
end

