-- ==== Sys2Proof/Machine/Control.lean ====
section
/-! DEFINITION. Control transfer (42_control_flow.md) and the no-op handler (40_cycle_and_dispatch.md R115).
pc already holds the address of the next instruction. -/

namespace Sys2Proof.Machine

/-- 00EE (R140): pop the return address; the entry keeps its value (10_state.md R25). For sp above 16 the entry
does not exist, and the model stops (log 4). -/
def exec00EE (s : State) : Host.Outcome State Fault Refusal :=
  if s.sp = 0 then .next (s.raise .stackUnderflow)
  else
    match s.stackEntry (s.sp - 1).toNat with
    | some w => .next ({ s with sp := s.sp - 1 }.setPc w)
    | none => .fault .stackEntryMissing

/-- 1nnn (R141). -/
def exec1nnn (nnn : Addr12) (s : State) : Host.Outcome State Fault Refusal := .next (s.setPc (zextAddr nnn))

/-- 2nnn (R142): push the advanced pc, then jump. -/
def exec2nnn (nnn : Addr12) (s : State) : Host.Outcome State Fault Refusal :=
  if Config.stackDepth ≤ s.sp.toNat then .next (s.raise .stackOverflow)
  else .next ({ s.setStackEntry s.sp.toNat s.pc with sp := s.sp + 1 }.setPc (zextAddr nnn))

/-- Bnnn (R143): the offset register is always V0. -/
def execBnnn (nnn : Addr12) (s : State) : Host.Outcome State Fault Refusal :=
  .next (s.setPc (zextAddr nnn + zextByte (s.getV 0)))

/-- The no-op handler (40_cycle_and_dispatch.md R115): it emits UnknownOpcode(opcode) and does nothing else. -/
def execNOP (s : State) : Host.Outcome State Fault Refusal := .next { s with diag := s.diag ++ [s.opcode] }

end Sys2Proof.Machine
end

