-- ==== Sys2Proof/Machine/Device.lean ====
section
/-! DEFINITION. Random, keypad and timer instructions (46_random_timer_keypad.md). -/

namespace Sys2Proof.Machine

/-- `draw RAND` (00_scope.md R9, R11): the step's free byte, and the state that will draw another one next.
DESIGN CHOICE (log 2). safe. -/
def State.drawByte (s : State) : Byte × State := (Config.rand s.draws, { s with draws := s.draws + 1 })

/-- Cxnn (R190). -/
def execCxnn (x : Reg) (nn : Byte) (s : State) : Host.Outcome State Fault Refusal :=
  .next (s.drawByte.2.setV x (s.drawByte.1 &&& nn))

/-- Ex9E and ExA1: the key numbered Vx, or KeyIndexOutOfRange (R191, R192); the skip is taken when the key's
state is `pressed`. -/
def skipOnKey (x : Reg) (pressed : Bool) (s : State) : Host.Outcome State Fault Refusal :=
  match s.key (s.getV x) with
  | none => .next (s.raise (.keyIndexOutOfRange (s.getV x)))
  | some k => .next (s.skipIf (k == pressed))

/-- Ex9E (R191). -/
def execEx9E (x : Reg) (s : State) : Host.Outcome State Fault Refusal := skipOnKey x true s

/-- ExA1 (R192). -/
def execExA1 (x : Reg) (s : State) : Host.Outcome State Fault Refusal := skipOnKey x false s

/-- Fx07 (R193). -/
def execFx07 (x : Reg) (s : State) : Host.Outcome State Fault Refusal := .next (s.setV x s.dt)

/-- Fx0A (R194): the least pressed key, or pc back to this instruction. -/
def execFx0A (x : Reg) (s : State) : Host.Outcome State Fault Refusal :=
  match s.firstPressed with
  | some k => .next (s.setV x (BitVec.ofNat 8 k.val))
  | none => .next (s.setPc (s.pc - 2))

/-- Fx15 (R195). -/
def execFx15 (x : Reg) (s : State) : Host.Outcome State Fault Refusal := .next { s with dt := s.getV x }

/-- Fx18 (R196). -/
def execFx18 (x : Reg) (s : State) : Host.Outcome State Fault Refusal := .next { s with st := s.getV x }

end Sys2Proof.Machine
end

