-- ==== Sys2Proof/Machine/Display.lean ====
section
/-! DEFINITION. The display instructions (41_display.md). -/

namespace Sys2Proof.Machine

/-- 00E0 (R130): every pixel off. -/
def exec00E0 (s : State) : Host.Outcome State Fault Refusal := .next { s with fb := Frame.clear }

/-- Dxyn (R131): the coordinates are read first, all n sprite bytes are checked, VF is cleared, and the sprite
is drawn with VF set to 1 at the first collision and after. -/
def execDxyn (x y : Reg) (n : Nibble) (s : State) : Host.Outcome State Fault Refusal :=
  let p := s.plotSprite (s.fb, 0) (s.startCol x) (s.startRow y) n.toNat
  checkedAccess s n.toNat (({ s with fb := p.1 } : State).setV vf p.2)

end Sys2Proof.Machine
end

