-- ==== Sys2Proof/Machine/Index.lean ====
section
/-! DEFINITION. The index register and memory transfers (45_index_memory.md). -/

namespace Sys2Proof.Machine

/-- Annn (R180). -/
def execAnnn (nnn : Addr12) (s : State) : Host.Outcome State Fault Refusal :=
  .next (s.setIndex (zextAddr nnn))

/-- Fx1E (R181): modulo 2^16, no flag. -/
def execFx1E (x : Reg) (s : State) : Host.Outcome State Fault Refusal :=
  .next (s.setIndex (s.index + zextByte (s.getV x)))

/-- Fx29 (R182): Vx is not reduced to a digit. -/
def execFx29 (x : Reg) (s : State) : Host.Outcome State Fault Refusal :=
  .next (s.setIndex (BitVec.ofNat 16 (Config.fontBase + Config.glyphBytes * (s.getV x).toNat)))

/-- Fx33 (R183): three digits at I, I + 1 and I + 2. -/
def execFx33 (x : Reg) (s : State) : Host.Outcome State Fault Refusal :=
  checkedAccess s 3 (s.writeBytes (s.indexAddr 0) (bcdDigits (s.getV x)))

/-- Fx55 (R184): V0 to Vx stored from I on, then I advanced by x + 1. -/
def execFx55 (x : Reg) (s : State) : Host.Outcome State Fault Refusal :=
  checkedAccess s (x.val + 1) ((s.writeBytes (s.indexAddr 0) (s.regBytes x)).advanceIndex x)

/-- Fx65 (R185): V0 to Vx loaded from I on, then I advanced by x + 1. -/
def execFx65 (x : Reg) (s : State) : Host.Outcome State Fault Refusal :=
  checkedAccess s (x.val + 1) ((s.loadRegs x).advanceIndex x)

end Sys2Proof.Machine
end

