-- ==== Sys2Proof/WellFormed.lean ====
section
/-! DEFINITION. Which terms of Instr are instructions. The types of the operand fields already hold every bound
of 30_encoding.md R81 and R82 (a 4-bit register number, an 8-bit nn, a 12-bit nnn, a 4-bit n), so the one check
left is that the no-op stands only for a word that no other row takes (R90). -/

namespace Sys2Proof

/-- The words of 30_encoding.md R90: a category with a second-level table, and a key that has no entry in it. -/
def unrecognized (w : Word) : Bool :=
  let op := w.toNat / 4096
  let n := w.toNat % 16
  let nn := w.toNat % 256
  (op == 0x0 && n != 0x0 && n != 0xE) ||
  (op == 0x8 && 0x8 ≤ n && n != 0xE) ||
  (op == 0xE && n != 0x1 && n != 0xE) ||
  (op == 0xF && !([0x07, 0x0A, 0x15, 0x18, 0x1E, 0x29, 0x33, 0x55, 0x65].contains nn))

/-- An instruction the decoder can give. -/
def WellFormed : Instr → Bool
  | .opNOP w => unrecognized w
  | _ => true

end Sys2Proof
end

