-- ==== Sys2Proof/Decode.lean ====
section
/-! DEFINITION. The two-level decoder of 30_encoding.md R80 to R92, total on any bytes, then the encoder written
from the formats of R82, the canonical words of R91 and the opcode map of R94. -/

namespace Sys2Proof

/-! ## The fields of an opcode (R81) -/

def opField (w : Word) : Nibble := w.extractLsb' 12 4
def xField (w : Word) : Reg := ⟨(w.extractLsb' 8 4).toNat, (w.extractLsb' 8 4).isLt⟩
def yField (w : Word) : Reg := ⟨(w.extractLsb' 4 4).toNat, (w.extractLsb' 4 4).isLt⟩
def nField (w : Word) : Nibble := w.extractLsb' 0 4
def nnField (w : Word) : Byte := w.extractLsb' 0 8
def nnnField (w : Word) : Addr12 := w.extractLsb' 0 12

/-! ## The two-level decode (R84 to R90) -/

/-- Table T0 (R85), keyed by n only. -/
def decodeT0 (w : Word) : Instr :=
  match (nField w).toNat with
  | 0x0 => .op00E0
  | 0xE => .op00EE
  | _ => .opNOP w

/-- Table T8 (R86), keyed by n. -/
def decodeT8 (w : Word) : Instr :=
  match (nField w).toNat with
  | 0x0 => .op8xy0 (xField w) (yField w)
  | 0x1 => .op8xy1 (xField w) (yField w)
  | 0x2 => .op8xy2 (xField w) (yField w)
  | 0x3 => .op8xy3 (xField w) (yField w)
  | 0x4 => .op8xy4 (xField w) (yField w)
  | 0x5 => .op8xy5 (xField w) (yField w)
  | 0x6 => .op8xy6 (xField w) (yField w)
  | 0x7 => .op8xy7 (xField w) (yField w)
  | 0xE => .op8xyE (xField w) (yField w)
  | _ => .opNOP w

/-- Table TE (R87), keyed by n only. -/
def decodeTE (w : Word) : Instr :=
  match (nField w).toNat with
  | 0x1 => .opExA1 (xField w)
  | 0xE => .opEx9E (xField w)
  | _ => .opNOP w

/-- Table TF (R88), keyed by the whole low byte nn. -/
def decodeTF (w : Word) : Instr :=
  match (nnField w).toNat with
  | 0x07 => .opFx07 (xField w)
  | 0x0A => .opFx0A (xField w)
  | 0x15 => .opFx15 (xField w)
  | 0x18 => .opFx18 (xField w)
  | 0x1E => .opFx1E (xField w)
  | 0x29 => .opFx29 (xField w)
  | 0x33 => .opFx33 (xField w)
  | 0x55 => .opFx55 (xField w)
  | 0x65 => .opFx65 (xField w)
  | _ => .opNOP w

/-- The first level (R84, R89): the top nibble selects an instruction or a second-level table. The last case
is 0xF, the one value of four bits that the others leave. -/
def decodeWord (w : Word) : Instr :=
  match (opField w).toNat with
  | 0x0 => decodeT0 w
  | 0x1 => .op1nnn (nnnField w)
  | 0x2 => .op2nnn (nnnField w)
  | 0x3 => .op3xnn (xField w) (nnField w)
  | 0x4 => .op4xnn (xField w) (nnField w)
  | 0x5 => .op5xy0 (xField w) (yField w)
  | 0x6 => .op6xnn (xField w) (nnField w)
  | 0x7 => .op7xnn (xField w) (nnField w)
  | 0x8 => decodeT8 w
  | 0x9 => .op9xy0 (xField w) (yField w)
  | 0xA => .opAnnn (nnnField w)
  | 0xB => .opBnnn (nnnField w)
  | 0xC => .opCxnn (xField w) (nnField w)
  | 0xD => .opDxyn (xField w) (yField w) (nField w)
  | 0xE => decodeTE w
  | _ => decodeTF w

/-- Why bytes are no instruction: fewer than the two bytes of R80 are left. No word is rejected (R92). -/
inductive DecodeError where
  | fewerThanTwoBytes
  deriving DecidableEq, Repr

/-- Two bytes make a word big-endian, the byte at the lower address in bits 15:8 (20_memory.md R65). -/
def wordOfBytes (hi lo : Byte) : Word := hi ++ lo

/-- The instruction at the front of a byte sequence, and the bytes after it. -/
def decode : List Byte → Except DecodeError (Instr × List Byte)
  | hi :: lo :: rest => .ok (decodeWord (wordOfBytes hi lo), rest)
  | _ => .error .fewerThanTwoBytes

/-! ## The encoder (R82, R91) -/

/-- A register number as the four bits of a field. -/
def regBits (r : Reg) : Nibble := BitVec.ofNat 4 r.val

/-- Formats A, XB and XY, XYK, XYN: the nibbles and bytes from bit 15 down. -/
def formatA (op : Nibble) (nnn : Addr12) : Word := op ++ nnn
def formatXB (op : Nibble) (x : Reg) (nn : Byte) : Word := op ++ (regBits x ++ nn : BitVec 12)
def formatXY (op : Nibble) (x y : Reg) (n : Nibble) : Word :=
  op ++ (regBits x ++ (regBits y ++ n : Byte) : BitVec 12)

/-- The canonical word of an instruction (R91): ignored bits as the pattern of the row shows them. -/
def encode : Instr → Word
  | .op00E0 => 0x00E0
  | .op00EE => 0x00EE
  | .op1nnn nnn => formatA 0x1 nnn
  | .op2nnn nnn => formatA 0x2 nnn
  | .op3xnn x nn => formatXB 0x3 x nn
  | .op4xnn x nn => formatXB 0x4 x nn
  | .op5xy0 x y => formatXY 0x5 x y 0x0
  | .op6xnn x nn => formatXB 0x6 x nn
  | .op7xnn x nn => formatXB 0x7 x nn
  | .op8xy0 x y => formatXY 0x8 x y 0x0
  | .op8xy1 x y => formatXY 0x8 x y 0x1
  | .op8xy2 x y => formatXY 0x8 x y 0x2
  | .op8xy3 x y => formatXY 0x8 x y 0x3
  | .op8xy4 x y => formatXY 0x8 x y 0x4
  | .op8xy5 x y => formatXY 0x8 x y 0x5
  | .op8xy6 x y => formatXY 0x8 x y 0x6
  | .op8xy7 x y => formatXY 0x8 x y 0x7
  | .op8xyE x y => formatXY 0x8 x y 0xE
  | .op9xy0 x y => formatXY 0x9 x y 0x0
  | .opAnnn nnn => formatA 0xA nnn
  | .opBnnn nnn => formatA 0xB nnn
  | .opCxnn x nn => formatXB 0xC x nn
  | .opDxyn x y n => formatXY 0xD x y n
  | .opEx9E x => formatXB 0xE x 0x9E
  | .opExA1 x => formatXB 0xE x 0xA1
  | .opFx07 x => formatXB 0xF x 0x07
  | .opFx0A x => formatXB 0xF x 0x0A
  | .opFx15 x => formatXB 0xF x 0x15
  | .opFx18 x => formatXB 0xF x 0x18
  | .opFx1E x => formatXB 0xF x 0x1E
  | .opFx29 x => formatXB 0xF x 0x29
  | .opFx33 x => formatXB 0xF x 0x33
  | .opFx55 x => formatXB 0xF x 0x55
  | .opFx65 x => formatXB 0xF x 0x65
  | .opNOP w => w

/-- The two bytes of an instruction as memory holds them, the first at the lower address (R80). -/
def encodeBytes (i : Instr) : List Byte :=
  [(encode i).extractLsb' 8 8, (encode i).extractLsb' 0 8]

/-- A word with the bits its instruction ignores set as the row's pattern shows them (R91). -/
def canonicalWord (w : Word) : Word :=
  match (opField w).toNat, (nField w).toNat with
  | 0x0, 0x0 => 0x00E0
  | 0x0, 0xE => 0x00EE
  | 0x5, _ => w &&& 0xFFF0
  | 0x9, _ => w &&& 0xFFF0
  | 0xE, 0xE => (w &&& 0xFF0F) ||| 0x0090
  | 0xE, 0x1 => (w &&& 0xFF0F) ||| 0x00A0
  | _, _ => w

/-! ## The opcode map (R94) -/

/-- Rows 1 to 34 of R94; row 35, the no-op, is the default. -/
def opcodeTable : List OpcodeRow :=
  [⟨"00E0", 0x0000, 0xF00F⟩, ⟨"00EE", 0x000E, 0xF00F⟩, ⟨"1nnn", 0x1000, 0xF000⟩,
   ⟨"2nnn", 0x2000, 0xF000⟩, ⟨"3xnn", 0x3000, 0xF000⟩, ⟨"4xnn", 0x4000, 0xF000⟩,
   ⟨"5xy0", 0x5000, 0xF000⟩, ⟨"6xnn", 0x6000, 0xF000⟩, ⟨"7xnn", 0x7000, 0xF000⟩] ++
  [⟨"8xy0", 0x8000, 0xF00F⟩, ⟨"8xy1", 0x8001, 0xF00F⟩, ⟨"8xy2", 0x8002, 0xF00F⟩,
   ⟨"8xy3", 0x8003, 0xF00F⟩, ⟨"8xy4", 0x8004, 0xF00F⟩, ⟨"8xy5", 0x8005, 0xF00F⟩,
   ⟨"8xy6", 0x8006, 0xF00F⟩, ⟨"8xy7", 0x8007, 0xF00F⟩, ⟨"8xyE", 0x800E, 0xF00F⟩] ++
  [⟨"9xy0", 0x9000, 0xF000⟩, ⟨"Annn", 0xA000, 0xF000⟩, ⟨"Bnnn", 0xB000, 0xF000⟩,
   ⟨"Cxnn", 0xC000, 0xF000⟩, ⟨"Dxyn", 0xD000, 0xF000⟩, ⟨"Ex9E", 0xE00E, 0xF00F⟩,
   ⟨"ExA1", 0xE001, 0xF00F⟩] ++
  [⟨"Fx07", 0xF007, 0xF0FF⟩, ⟨"Fx0A", 0xF00A, 0xF0FF⟩, ⟨"Fx15", 0xF015, 0xF0FF⟩,
   ⟨"Fx18", 0xF018, 0xF0FF⟩, ⟨"Fx1E", 0xF01E, 0xF0FF⟩, ⟨"Fx29", 0xF029, 0xF0FF⟩,
   ⟨"Fx33", 0xF033, 0xF0FF⟩, ⟨"Fx55", 0xF055, 0xF0FF⟩, ⟨"Fx65", 0xF065, 0xF0FF⟩]

/-- A word selects a row when its bits under the row's mask are the row's pattern. -/
def selects (w : Word) (r : OpcodeRow) : Bool := w &&& r.mask == r.pattern

/-- The mnemonic of the first row a word selects, and the no-op's where it selects none. -/
def tableMnemonic (w : Word) : String :=
  match opcodeTable.find? (selects w) with
  | some r => r.mnemonic
  | none => "NOP"

/-! ## The host's question about one word -/

/-- The two bytes, as memory holds them, of the instruction whose nbits low bits are w and whose bits above
are zero. A word is 16 bits (R80) and its high byte lies at the lower address (20_memory.md R65). -/
def tableBytes (nbits w : Nat) : List Byte :=
  let word : Word := BitVec.ofNat 16 (w % 2 ^ nbits)
  [word.extractLsb' 8 8, word.extractLsb' 0 8]

/-- The instruction the decoder reads from the instruction whose nbits low bits are w. -/
def decodeTableWord (nbits w : Nat) : Option Instr :=
  match decode (tableBytes nbits w) with
  | .ok (i, _) => some i
  | .error _ => none

end Sys2Proof
end

