-- ==== Sys2Proof/Machine/Fetch.lean ====
section
/-! DEFINITION. The part of a Cycle() before the handler (40_cycle_and_dispatch.md R110 to R113), and the
placing of an instruction where the next Cycle() fetches it. -/

namespace Sys2Proof.Machine

/-- A faulted core does nothing (R110). A fetch past 0xFFF raises FetchOutOfRange before `opcode` or `pc`
change (R111). Otherwise the word is fetched, pc advances, and the word is decoded (R112, R113). -/
def State.startCycle (s : State) : Fetched :=
  if s.fault.isSome then .ended s
  else
    match s.fetchWord with
    | none => .ended (s.raise (.fetchOutOfRange s.pc))
    | some w => .handler (decodeWord w) (s.advance w)

/-- The state with bytes stored from pc on. What the fetch needs besides is set too: no recorded fault, and a
pc the fetch can read (a pc of 0xFFF or above becomes 0x200). -/
def State.placeAtFetch (s : State) (bytes : List Byte) : State :=
  let pc : Word := if 0xFFF < s.pc.toNat + 1 then 0x200 else s.pc
  ({ s with fault := none, pc := pc } : State).writeBytes pc.toNat bytes

end Sys2Proof.Machine
end

