-- ==== Sys2Proof/Machine/Step.lean ====
section
/-! DEFINITION. Cycle(), the only step of the core (40_cycle_and_dispatch.md R110). -/

namespace Sys2Proof.Machine

/-- One Cycle(): the fetch, the advance and the decode, then the handler. -/
def step (s : State) : Host.Outcome State Fault Refusal :=
  match s.startCycle with
  | .ended t => .next t
  | .handler i t => exec i t

/-- The state whose next step runs the instruction whose nbits low bits are w (log 7). -/
def State.withFetchWord (s : State) (nbits w : Nat) : State := s.placeAtFetch (tableBytes nbits w)

end Sys2Proof.Machine
end

