-- ==== Sys2Proof/Machine/HostActions.lean ====
section
/-! DEFINITION. What the host can do to the core (10_state.md R39 to R41; 60_exceptions.md R211 to R214;
70_reset_and_hazards.md R230, R233 to R235): its actions as functions of the state, the order it must keep, and
the outputs it may read. -/

namespace Sys2Proof.Machine

/-- The result of `load_rom` (R233, R234). -/
inductive LoadResult where
  | ok
  | romTooLarge
  deriving DecidableEq, Repr

/-- The action inputs of R39. -/
inductive Action where
  | reset
  | loadRom (bytes : List Byte)
  | cycle
  | setKeys (k : Vector Bool 16)
  | tickDt
  | tickSt
  deriving DecidableEq, Repr

/-- How far the host has come (R214, R235): whether `reset` was done, and whether a `load_rom` is still due. -/
inductive Phase where
  | unbuilt
  | built
  | loaded
  | running
  deriving DecidableEq, Repr

/-- The host's side of a run: the core, the phase, and the result of the last `load_rom` since `reset`. -/
structure Session where
  state : State
  phase : Phase
  romResult : Option LoadResult
  deriving DecidableEq, Repr

/-- What the host may read between steps (R41). -/
structure HostView where
  fb : Frame
  dt : Byte
  st : Byte
  fault : Option Cause
  events : List Word
  deriving DecidableEq, Repr

/-- Reading the outputs; the core is not changed (60_exceptions.md R213). -/
def State.hostView (s : State) : HostView :=
  { fb := s.fb, dt := s.dt, st := s.st, fault := s.fault, events := s.diag }

/-- Construction with a given FONT (00_scope.md R9; 10_state.md R33, R38): the 80 bytes of FONT at 0x050 to 0x09F,
every other element as in `State.reset`. -/
def State.resetWith (font : FontTable) : State := State.reset.writeBytes Config.fontBase font.toList

/-- `reset` (R230) of a core with a given FONT: every element at its reset value whatever the core held. The random stream goes on, and the
events already emitted stay emitted. DESIGN CHOICE (log 2, log 3). safe. -/
def State.construct (font : FontTable) (s : State) : State :=
  { State.resetWith font with draws := s.draws, diag := s.diag }

/-- The result of `load_rom(bytes)` (R233, R234). -/
def loadResult (bytes : List Byte) : LoadResult :=
  if Config.maxRom < bytes.length then .romTooLarge else .ok

/-- `load_rom(bytes)`: the ROM copied from 0x200 on, or nothing when it is too large (R233, R234). -/
def State.loadRom (s : State) (bytes : List Byte) : State :=
  match loadResult bytes with
  | .romTooLarge => s
  | .ok => s.writeBytes Config.progBase bytes

/-- `set_keys(k)` (R212). -/
def State.setKeys (s : State) (k : Vector Bool 16) : State := { s with keys := k }

/-- `tick_dt` (R211). -/
def State.tickDt (s : State) : State := if s.dt = 0 then s else { s with dt := s.dt - 1 }

/-- `tick_st` (R211). -/
def State.tickSt (s : State) : State := if s.st = 0 then s else { s with st := s.st - 1 }

/-- A session whose core one Cycle() has run. -/
def Session.cycle (z : Session) : Host.Outcome Session Fault Refusal :=
  match step z.state with
  | .next t => .next { z with state := t, phase := .running }
  | .fault r => .fault r
  | .refused r => .refused r

/-- One host action (R214) on a core with a given FONT. Before the first `reset` only `reset` is admitted; `load_rom` is admitted once,
after `reset` and before the first `cycle` (D24). DESIGN CHOICE (log 6). safe. -/
def act (font : FontTable) (a : Action) (z : Session) : Host.Outcome Session Fault Refusal :=
  match a, z.phase with
  | .reset, _ => .next { state := z.state.construct font, phase := .built, romResult := none }
  | _, .unbuilt => .refused .notReset
  | .loadRom b, .built => .next { state := z.state.loadRom b, phase := .loaded, romResult := some (loadResult b) }
  | .loadRom _, _ => .refused .loadRomOutOfOrder
  | .cycle, _ => z.cycle
  | .setKeys k, _ => .next { z with state := z.state.setKeys k }
  | .tickDt, _ => .next { z with state := z.state.tickDt }
  | .tickSt, _ => .next { z with state := z.state.tickSt }

/-- A run (70_reset_and_hazards.md R236) of a core with a given FONT: finitely many actions in turn, up to the first stop. -/
def runActions (font : FontTable) : List Action → Session → Host.Outcome Session Fault Refusal
  | [], z => .next z
  | a :: rest, z =>
    match act font a z with
    | .next w => runActions font rest w
    | .fault r => .fault r
    | .refused r => .refused r

end Sys2Proof.Machine
end

