-- ==== Sys2Proof/Safety.lean ====
section
/-! DEFINITION. The terms in which claims speak of a run: what a step leaves unchanged, the registers an
instruction may write, the fault an instruction raises, the pixels of a sprite, the states at which a run ends
(70_reset_and_hazards.md R236), and the invariant of the core. -/

namespace Sys2Proof.Machine

/-! ## What is unchanged (40_cycle_and_dispatch.md R116) -/

/-- The elements of State. -/
inductive Part where
  | mem | v | index | pc | stack | sp | dt | st | keys | fb | opcode | fault | draws | diag
  deriving DecidableEq, Repr

/-- One element is the same in both states: memory byte by byte, registers one by one. -/
def SamePart (s t : State) : Part → Prop
  | .mem => ∀ a, t.readByte a = s.readByte a
  | .v => ∀ r, t.getV r = s.getV r
  | .index => t.index = s.index
  | .pc => t.pc = s.pc
  | .stack => t.stack = s.stack
  | .sp => t.sp = s.sp
  | .dt => t.dt = s.dt
  | .st => t.st = s.st
  | .keys => t.keys = s.keys
  | .fb => t.fb = s.fb
  | .opcode => t.opcode = s.opcode
  | .fault => t.fault = s.fault
  | .draws => t.draws = s.draws
  | .diag => t.diag = s.diag

/-- Every element outside `ps` is the same in t as in s. -/
def OnlyChanges (ps : List Part) (s t : State) : Prop := ∀ p, p ∉ ps → SamePart s t p

/-- Every general register outside `rs` is the same in t as in s. -/
def RegsKept (rs : List Reg) (s t : State) : Prop := ∀ r, r ∉ rs → t.getV r = s.getV r

/-- Every byte of memory outside the n bytes from address a on is the same in t as in s. -/
def BytesKeptOutside (a n : Nat) (s t : State) : Prop :=
  ∀ b, ¬ (a ≤ b ∧ b < a + n) → t.readByte b = s.readByte b

/-- A function of the next state, applied where there is one. -/
def mapNext (f : State → State) : Host.Outcome State Fault Refusal → Host.Outcome State Fault Refusal
  | .next t => .next (f t)
  | .fault r => .fault r
  | .refused r => .refused r

/-! ## Which registers an instruction may write (10_state.md R22) -/

/-- The instructions that write VF as a flag: the table of R22. -/
def writesFlag : Instr → Bool
  | .op8xy4 _ _ | .op8xy5 _ _ | .op8xy6 _ _ | .op8xy7 _ _ | .op8xyE _ _ | .opDxyn _ _ _ => true
  | _ => false

/-- The general registers that are an instruction's destination. -/
def destRegs : Instr → List Reg
  | .op6xnn x _ | .op7xnn x _ | .opCxnn x _ => [x]
  | .op8xy0 x _ | .op8xy1 x _ | .op8xy2 x _ | .op8xy3 x _ => [x]
  | .op8xy4 x _ | .op8xy5 x _ | .op8xy6 x _ | .op8xy7 x _ | .op8xyE x _ => [x]
  | .opFx07 x | .opFx0A x => [x]
  | .opFx65 x => regsUpTo x
  | _ => []

/-! ## Faults (60_exceptions.md R200, R201) -/

/-- The n bytes from I on all exist. -/
def InRange (s : State) (n : Nat) : Prop := n = 0 ∨ s.index.toNat + n ≤ 0x1000

/-- Address a is the first of the n addresses from I on that is above 0xFFF (20_memory.md R64). -/
def FirstOutside (s : State) (n a : Nat) : Prop :=
  ∃ k, k < n ∧ a = s.indexAddr k ∧ 0xFFF < a ∧ ∀ j, j < k → s.indexAddr j ≤ 0xFFF

/-- The first address out of range that a data access reports (R201): 0x1000 when I is at most 0xFFF, else I. -/
def firstBadAddr (s : State) : Word := if s.index.toNat ≤ 0xFFF then 0x1000 else s.index

/-- The fault of a data access to n bytes from I on, if any. -/
def rangeFault (s : State) (n : Nat) : Option Cause :=
  if n = 0 ∨ s.index.toNat + n ≤ 0x1000 then none else some (.memoryOutOfRange (firstBadAddr s))

/-- The fault of a key operand, if any. -/
def keyFault (b : Byte) : Option Cause := if 0xF < b.toNat then some (.keyIndexOutOfRange b) else none

/-- The fault an instruction raises in a state (R200), if any. -/
def faultOf (i : Instr) (s : State) : Option Cause :=
  match i with
  | .op00EE => if s.sp = 0 then some .stackUnderflow else none
  | .op2nnn _ => if 16 ≤ s.sp.toNat then some .stackOverflow else none
  | .opDxyn _ _ n => rangeFault s n.toNat
  | .opFx33 _ => rangeFault s 3
  | .opFx55 x => rangeFault s (x.val + 1)
  | .opFx65 x => rangeFault s (x.val + 1)
  | .opEx9E x => keyFault (s.getV x)
  | .opExA1 x => keyFault (s.getV x)
  | _ => none

/-! ## Sprites (41_display.md R131) -/

/-- Whether the n-row sprite at I, drawn at (Vx, Vy), has a bit of 1 at column c and row r. -/
def spriteBit (s : State) (x y : Reg) (n : Nibble) (c r : Nat) : Bool :=
  decide (s.startCol x ≤ c ∧ c < s.startCol x + 8 ∧ s.startRow y ≤ r ∧ r < s.startRow y + n.toNat) &&
    (s.readByte (s.indexAddr (r - s.startRow y))).getLsbD (7 - (c - s.startCol x))

/-- The sprite has a bit of 1 on a visible pixel. -/
def spriteVisible (s : State) (x y : Reg) (n : Nibble) : Prop :=
  ∃ c r, c < 64 ∧ r < 32 ∧ spriteBit s x y n c r = true

/-- The sprite has a bit of 1 on a visible pixel that is on. -/
def spriteCollides (s : State) (x y : Reg) (n : Nibble) : Prop :=
  ∃ c r, c < 64 ∧ r < 32 ∧ spriteBit s x y n c r = true ∧ s.pixel c r = true

/-! ## The end of a run (70_reset_and_hazards.md R236) -/

/-- The instruction the next Cycle() runs, where its fetch is in range. -/
def State.nextInstr (s : State) : Option Instr := s.fetchWord.map decodeWord

/-- A recorded fault. -/
def Faulted (s : State) : Prop := s.fault ≠ none

/-- A jump to itself comes next. -/
def Parked (s : State) : Prop :=
  s.fault = none ∧ ∃ nnn, s.nextInstr = some (.op1nnn nnn) ∧ zextAddr nnn = s.pc

/-- Fx0A comes next, and no key is pressed. -/
def Polling (s : State) : Prop :=
  s.fault = none ∧ (∃ x, s.nextInstr = some (.opFx0A x)) ∧ ∀ k : Reg, s.keys[k.val] = false

/-! ## The invariant -/

/-- The info recorded with a fault fits the state the fault left (R201, R202). -/
def FaultInfoFits (s : State) : Prop :=
  match s.fault with
  | none => True
  | some (.fetchOutOfRange p) => p = s.pc ∧ 0xFFF ≤ p.toNat
  | some (.memoryOutOfRange a) => a = firstBadAddr s
  | some .stackOverflow => s.sp.toNat = 16
  | some .stackUnderflow => s.sp.toNat = 0
  | some (.keyIndexOutOfRange k) => 0xF < k.toNat ∧ ∃ r, s.getV r = k

/-- What every step keeps: memory in canonical form, sp in 0 to 16 (10_state.md R26), every stack entry an
address some call could push, pc no higher than a jump can put it (42_control_flow.md R143), and a recorded
fault whose info fits. -/
structure Inv (s : State) : Prop where
  memWf : Memory.wf s.mem
  spLegal : s.sp.toNat ≤ 16
  stackBound : ∀ k : Fin 16, s.stack[k.val].toNat ≤ 0x1000
  pcBound : s.pc.toNat ≤ 0x10FE
  faultFits : FaultInfoFits s

end Sys2Proof.Machine
end

