-- ==== Sys2Proof/Certificates/Slice0/Obligations.lean ====
section
/-! DEFINITION. The statements for the provers. Each docstring names the rule of spec/ it formalises. A next
state is described by the values the rule gives and by `OnlyChanges`, which says that every other element of the
state is the same (40_cycle_and_dispatch.md R116). -/

open Sys2Proof Sys2Proof.Machine

/-! ## The step (40_cycle_and_dispatch.md, 60_exceptions.md) -/

/-- R110 to R113: on a core without a fault, when the two bytes at pc decode to an instruction, a Cycle() is that
instruction's handler, run on the state with the fetched word in `opcode` and pc advanced by 2. -/
def Obligations.StepRunsDecodedInstruction : Prop :=
  ∀ (s : State) (i : Instr), s.fault = none → s.pc.toNat + 1 ≤ 0xFFF →
    decode [s.readByte s.pc.toNat, s.readByte (s.pc.toNat + 1)] = .ok (i, []) → WellFormed i = true →
    step s = exec i { s with
      opcode := s.readByte s.pc.toNat ++ s.readByte (s.pc.toNat + 1)
      pc := s.pc + 2 }

/-- R111: a fetch with pc + 1 above 0xFFF raises FetchOutOfRange(pc), and neither `opcode` nor pc nor anything
else changes. -/
def Obligations.FetchPastMemoryRaises : Prop :=
  ∀ s : State, s.fault = none → 0xFFF < s.pc.toNat + 1 →
    ∃ t, step s = .next t ∧ t.fault = some (.fetchOutOfRange s.pc) ∧ OnlyChanges [.fault] s t

/-- R204, R110: once a fault is recorded, no number of Cycle() steps has any effect. -/
def Obligations.FaultedCoreNeverMoves : Prop :=
  ∀ (s : State) (k : Nat), Faulted s → Host.Core.run core k s = .next s

/-- 10_state.md section 6: every element of the state after construction, for every value of the parameter FONT
(00_scope.md R9). That `State.reset` is the construction with the default FONT is the model's choice (DESIGN CHOICE,
log 1): the spec says which FONT is the default, not which one the reset state has. -/
def Obligations.ResetValues : Prop :=
  State.reset = State.resetWith Config.defaultFont ∧
  ∀ (font : FontTable) (s : State), s = State.resetWith font →
    (∀ a, a < 0x050 → s.readByte a = 0) ∧ (∀ k : Fin 80, s.readByte (0x050 + k.val) = font[k.val]) ∧
    (∀ a, 0x0A0 ≤ a → a ≤ 0xFFF → s.readByte a = 0) ∧
    (∀ r, s.getV r = 0) ∧ s.index = 0 ∧ s.pc = 0x0200 ∧
    (∀ k : Fin 16, s.stack[k.val] = 0) ∧ s.sp = 0 ∧ s.dt = 0 ∧ s.st = 0 ∧
    (∀ k : Fin 16, s.keys[k.val] = false) ∧ (∀ c r, c < 64 → r < 32 → s.pixel c r = false) ∧
    s.opcode = 0 ∧ s.fault = none

/-- The state after construction has the invariant `Inv`, with the default FONT and with any other. -/
def Obligations.ResetHasInvariant : Prop := Inv State.reset ∧ ∀ font : FontTable, Inv (State.resetWith font)

/-- Every step keeps the invariant: memory stays in canonical form, sp stays in 0 to 16 (10_state.md R26), every
stack entry stays at most 0x1000, pc at most 0x10FE (42_control_flow.md R143), and the info of a recorded fault
fits the state (60_exceptions.md R201). -/
def Obligations.StepKeepsInvariant : Prop :=
  ∀ s t : State, Inv s → step s = .next t → Inv t

/-- Nothing is stuck: from every state with the invariant a Cycle() answers a next state, and never a stop of the
model's own (log 4). -/
def Obligations.StepAlwaysAnswers : Prop :=
  ∀ s : State, Inv s → ∃ t, step s = .next t

/-- Whatever FONT, ROM, keys and ticks: a run of host actions (60_exceptions.md R214) from a session whose state
has the invariant, or from one before its first `reset`, ends in a session of that kind and not in a fault of the
model; and a run whose first action is `reset`, from any session at all, ends, if it ends in a next session, in a
state with the invariant, and not in a fault of the model. That actions out of order, those before the first
`reset` among them, are refused is the model's choice (log 6). -/
def Obligations.HostRunsKeepInvariant : Prop :=
  ∀ (font : FontTable) (actions : List Action) (z : Session),
    (z.phase = .unbuilt ∨ Inv z.state →
      (∀ w, runActions font actions z = .next w → w.phase = .unbuilt ∨ Inv w.state) ∧
      (∀ r, runActions font actions z ≠ .fault r)) ∧
    (∀ w, runActions font (.reset :: actions) z = .next w → Inv w.state) ∧
    (∀ r, runActions font (.reset :: actions) z ≠ .fault r)

/-- R118, R202: a handler that raises writes nothing but the `fault` register. -/
def Obligations.RaisingHandlerWritesNothing : Prop :=
  ∀ (i : Instr) (s t : State), s.fault = none → exec i s = .next t → t.fault ≠ none → OnlyChanges [.fault] s t

/-- R200, R201: the fault every handler raises, with its info, in every state: StackUnderflow by 00EE, and
StackOverflow by 2nnn, MemoryOutOfRange by Dxyn, Fx33, Fx55 and Fx65, KeyIndexOutOfRange by Ex9E and ExA1 (the
function `faultOf`), and by no other handler any. -/
def Obligations.HandlerFaultCause : Prop :=
  ∀ (i : Instr) (s t : State), s.fault = none → exec i s = .next t → t.fault = faultOf i s

/-! ## Who writes what (10_state.md R22 to R31, 20_memory.md R67) -/

/-- R22: a general register changes only by an instruction whose destination it is, and VF besides only by the
five flag-writing ALU instructions and Dxyn. -/
def Obligations.RegisterWriters : Prop :=
  ∀ (i : Instr) (s t : State), exec i s = .next t →
    (∀ r, r ≠ 15 → r ∉ destRegs i → t.getV r = s.getV r) ∧
    (15 ∉ destRegs i → writesFlag i = false → t.getV 15 = s.getV 15)

/-- R23: only Annn, Fx1E, Fx29, Fx55 and Fx65 write I. -/
def Obligations.IndexWriters : Prop :=
  ∀ (i : Instr) (s t : State), exec i s = .next t →
    (∀ nnn, i ≠ .opAnnn nnn) → (∀ x, i ≠ .opFx1E x) → (∀ x, i ≠ .opFx29 x) → (∀ x, i ≠ .opFx55 x) →
    (∀ x, i ≠ .opFx65 x) → t.index = s.index

/-- R24: after the advance only 1nnn, 2nnn, Bnnn, 00EE, the six skips and Fx0A change pc. -/
def Obligations.PcWriters : Prop :=
  ∀ (i : Instr) (s t : State), exec i s = .next t →
    (∀ a, i ≠ .op1nnn a) → (∀ a, i ≠ .op2nnn a) → (∀ a, i ≠ .opBnnn a) → i ≠ .op00EE →
    (∀ x b, i ≠ .op3xnn x b) → (∀ x b, i ≠ .op4xnn x b) → (∀ x y, i ≠ .op5xy0 x y) → (∀ x y, i ≠ .op9xy0 x y) →
    (∀ x, i ≠ .opEx9E x) → (∀ x, i ≠ .opExA1 x) → (∀ x, i ≠ .opFx0A x) → t.pc = s.pc

/-- R25, R26: only 2nnn writes a stack entry, and it writes the entry sp only; only 2nnn and 00EE change sp. -/
def Obligations.StackWriters : Prop :=
  ∀ (i : Instr) (s t : State), exec i s = .next t →
    ((∀ a, i ≠ .op2nnn a) → t.stack = s.stack) ∧
    (∀ k : Fin 16, k.val ≠ s.sp.toNat → t.stack[k.val] = s.stack[k.val]) ∧
    ((∀ a, i ≠ .op2nnn a) → i ≠ .op00EE → t.sp = s.sp)

/-- R27, R28, R30: a handler writes DT only with Fx15, ST only with Fx18, and the framebuffer only with 00E0 and
Dxyn. -/
def Obligations.TimerAndFramebufferWriters : Prop :=
  ∀ (i : Instr) (s t : State), exec i s = .next t →
    ((∀ x, i ≠ .opFx15 x) → t.dt = s.dt) ∧ ((∀ x, i ≠ .opFx18 x) → t.st = s.st) ∧
    (i ≠ .op00E0 → (∀ x y n, i ≠ .opDxyn x y n) → t.fb = s.fb)

/-- R67: a handler writes memory only with Fx33, at I to I + 2, and with Fx55, at I to I + x. -/
def Obligations.MemoryWriters : Prop :=
  ∀ (i : Instr) (s t : State), exec i s = .next t →
    ((∀ x, i ≠ .opFx33 x) → (∀ x, i ≠ .opFx55 x) → ∀ a, t.readByte a = s.readByte a) ∧
    (∀ x, i = .opFx33 x → BytesKeptOutside (s.indexAddr 0) 3 s t) ∧
    (∀ x, i = .opFx55 x → BytesKeptOutside (s.indexAddr 0) (x.val + 1) s t)

/-- R29, R31, R114: no handler writes the keypad or the `opcode` register. -/
def Obligations.KeypadAndOpcodeKept : Prop :=
  ∀ (i : Instr) (s t : State), exec i s = .next t → t.keys = s.keys ∧ t.opcode = s.opcode

/-- R28, R31: no instruction reads ST, and none but the diagnostic of the no-op reads `opcode`: another value in
either leads to the same outcome with that value still in its place. -/
def Obligations.OpcodeAndSoundTimerNeverRead : Prop :=
  ∀ (i : Instr) (s : State) (w : Word) (b : Byte),
    ((∀ u, i ≠ .opNOP u) → exec i { s with opcode := w } = mapNext (fun t => { t with opcode := w }) (exec i s)) ∧
    ((∀ x, i ≠ .opFx18 x) → exec i { s with st := b } = mapNext (fun t => { t with st := b }) (exec i s)) ∧
    (∀ x, i = .opFx18 x → exec i { s with st := b } = exec i s)

/-- R40: the random input is taken only by Cxnn: for every other instruction the outcome does not depend on which
draw comes next. The counter of the draws is the model's (log 2). -/
def Obligations.RandomInputOnlyInCxnn : Prop :=
  ∀ (i : Instr) (s : State) (k : Nat), (∀ x nn, i ≠ .opCxnn x nn) →
    exec i { s with draws := k } = mapNext (fun t => { t with draws := k }) (exec i s)

/-! ## Display (41_display.md) -/

/-- R130: 00E0 turns every pixel off and changes nothing else. -/
def Obligations.ClearScreenTurnsEveryPixelOff : Prop :=
  ∀ s : State, ∃ t, exec .op00E0 s = .next t ∧
    (∀ c r, c < 64 → r < 32 → t.pixel c r = false) ∧ OnlyChanges [.fb] s t

/-- R131: when all n sprite bytes exist, Dxyn flips exactly the visible pixels under a sprite bit of 1, counted
from (Vx mod 64, Vy mod 32) as they were before, leaves VF 1 if one of those pixels was on and 0 otherwise, and
changes nothing else. The order of the bits in a sprite byte is the spec's from general knowledge (D14). -/
def Obligations.DrawXorsVisiblePixels : Prop :=
  ∀ (s : State) (x y : Reg) (n : Nibble), InRange s n.toNat →
    ∃ t, exec (.opDxyn x y n) s = .next t ∧
      (∀ c r, c < 64 → r < 32 → t.pixel c r = (s.pixel c r ^^ spriteBit s x y n c r)) ∧
      (spriteCollides s x y n → t.getV 15 = 1) ∧ (¬ spriteCollides s x y n → t.getV 15 = 0) ∧
      RegsKept [15] s t ∧ OnlyChanges [.fb, .v] s t

/-- Drawing the same sprite twice at the same place restores every pixel (41_display.md R131, 90_conflicts.md C9).
VF is no coordinate, so that the place is the same. The clause on VF is DEDUCED (log 8): the second draw leaves VF
1 exactly when a bit of 1 falls on a visible pixel that was off before the first draw, which turned it on. It
follows from the pseudocode of R131, which C9 says wins, and departs from the corner case "Drawing twice" of R131
and C9, which ask only for a bit of 1 on a visible pixel. -/
def Obligations.DrawTwiceRestoresScreen : Prop :=
  ∀ (s : State) (x y : Reg) (n : Nibble), x ≠ 15 → y ≠ 15 → InRange s n.toNat →
    ∃ t u, exec (.opDxyn x y n) s = .next t ∧ exec (.opDxyn x y n) t = .next u ∧
      (∀ c r, c < 64 → r < 32 → u.pixel c r = s.pixel c r) ∧
      (u.getV 15 = 1 ↔ ∃ c r, c < 64 ∧ r < 32 ∧ spriteBit s x y n c r = true ∧ s.pixel c r = false)

/-- The inference marked [derived] in R131 (and C9), read for every framebuffer: the second draw leaves VF 1
exactly when the sprite has a bit of 1 on a visible pixel (log 8). Expected to FAIL: where all those pixels were on before
the first draw, it turns them off, and the second draw finds none on. -/
def Obligations.SecondDrawCollidesWheneverVisible : Prop :=
  ∀ (s t u : State) (x y : Reg) (n : Nibble), x ≠ 15 → y ≠ 15 → InRange s n.toNat →
    exec (.opDxyn x y n) s = .next t → exec (.opDxyn x y n) t = .next u →
    (u.getV 15 = 1 ↔ spriteVisible s x y n)

/-! ## Control transfer (42_control_flow.md) and the no-op -/

/-- R140: 00EE with sp = 0 raises StackUnderflow and changes nothing but the `fault` register; with sp = k + 1
entries in use it leaves sp = k and pc = stack[k], the entry keeps its value, and nothing else changes. -/
def Obligations.ReturnPopsStack : Prop :=
  ∀ s : State,
    (s.sp = 0 → ∃ t, exec .op00EE s = .next t ∧ t.fault = some .stackUnderflow ∧ OnlyChanges [.fault] s t) ∧
    (∀ k : Fin 16, s.sp.toNat = k.val + 1 →
      ∃ t, exec .op00EE s = .next t ∧ t.sp.toNat = k.val ∧ t.pc = s.stack[k.val] ∧ OnlyChanges [.sp, .pc] s t)

/-- The model's choice (log 4): with sp above 16, which 10_state.md R26 says never occurs, the entry 00EE would
pop does not exist, and the model stops by name. -/
def Obligations.ReturnBeyondStackStops : Prop :=
  ∀ s : State, 16 < s.sp.toNat → exec .op00EE s = .fault .stackEntryMissing

/-- R141: 1nnn leaves pc = nnn exactly. R143: Bnnn leaves pc = nnn + V0. Neither changes anything else. -/
def Obligations.JumpsSetPc : Prop :=
  ∀ (s : State) (nnn : Addr12),
    (∃ t, exec (.op1nnn nnn) s = .next t ∧ t.pc.toNat = nnn.toNat ∧ OnlyChanges [.pc] s t) ∧
    (∃ t, exec (.opBnnn nnn) s = .next t ∧ t.pc.toNat = nnn.toNat + (s.getV 0).toNat ∧ OnlyChanges [.pc] s t)

/-- R142: with 16 entries in use, 2nnn raises StackOverflow and changes nothing but the `fault` register; with
fewer it writes the advanced pc to stack[sp], adds 1 to sp, leaves pc = nnn, and changes nothing else. -/
def Obligations.CallPushesAndJumps : Prop :=
  ∀ (s : State) (nnn : Addr12),
    (16 ≤ s.sp.toNat →
      ∃ t, exec (.op2nnn nnn) s = .next t ∧ t.fault = some .stackOverflow ∧ OnlyChanges [.fault] s t) ∧
    (s.sp.toNat < 16 →
      ∃ t, exec (.op2nnn nnn) s = .next t ∧
        (∀ k : Fin 16, t.stack[k.val] = if k.val = s.sp.toNat then s.pc else s.stack[k.val]) ∧
        t.sp.toNat = s.sp.toNat + 1 ∧ t.pc.toNat = nnn.toNat ∧ OnlyChanges [.stack, .sp, .pc] s t)

/-- R140, R142: a 00EE run with the stack and sp a call left brings pc back to the word after the call, and sp to
its value before it. -/
def Obligations.ReturnUndoesCall : Prop :=
  ∀ (s : State) (nnn : Addr12), s.sp.toNat < 16 →
    ∃ t, exec (.op2nnn nnn) s = .next t ∧
      ∀ u : State, u.stack = t.stack → u.sp = t.sp →
        ∃ w, exec .op00EE u = .next w ∧ w.pc = s.pc ∧ w.sp = s.sp

/-- R115: the no-op handler emits UnknownOpcode(opcode) and changes no element of the spec's state. The list of
events is the model's record of the output (log 3). -/
def Obligations.NoOpOnlyEmitsDiagnostic : Prop :=
  ∀ (s : State) (word : Word),
    ∃ t, exec (.opNOP word) s = .next t ∧ t.diag = s.diag ++ [s.opcode] ∧ OnlyChanges [.diag] s t

/-! ## Skips (43_skips.md) -/

/-- R150 to R153: each register skip adds 2 to pc when its condition holds and changes nothing otherwise. -/
def Obligations.RegisterSkips : Prop :=
  ∀ (s : State) (x y : Reg) (nn : Byte),
    (∃ t, exec (.op3xnn x nn) s = .next t ∧
      t.pc = (if s.getV x = nn then s.pc + 2 else s.pc) ∧ OnlyChanges [.pc] s t) ∧
    (∃ t, exec (.op4xnn x nn) s = .next t ∧
      t.pc = (if s.getV x ≠ nn then s.pc + 2 else s.pc) ∧ OnlyChanges [.pc] s t) ∧
    (∃ t, exec (.op5xy0 x y) s = .next t ∧
      t.pc = (if s.getV x = s.getV y then s.pc + 2 else s.pc) ∧ OnlyChanges [.pc] s t) ∧
    (∃ t, exec (.op9xy0 x y) s = .next t ∧
      t.pc = (if s.getV x ≠ s.getV y then s.pc + 2 else s.pc) ∧ OnlyChanges [.pc] s t)

/-! ## Loads and the ALU (44_register_alu.md) -/

/-- R161, R163: 6xnn leaves Vx = nn, 8xy0 leaves Vx = Vy; nothing else changes. -/
def Obligations.LoadAndCopyRegister : Prop :=
  ∀ (s : State) (x y : Reg) (nn : Byte),
    (∃ t, exec (.op6xnn x nn) s = .next t ∧ t.getV x = nn ∧ RegsKept [x] s t ∧ OnlyChanges [.v] s t) ∧
    (∃ t, exec (.op8xy0 x y) s = .next t ∧ t.getV x = s.getV y ∧ RegsKept [x] s t ∧ OnlyChanges [.v] s t)

/-- R162: 7xnn leaves Vx = Vx + nn modulo 256 and changes nothing else, VF included unless x is 0xF. -/
def Obligations.AddImmediateWrapsWithoutFlag : Prop :=
  ∀ (s : State) (x : Reg) (nn : Byte),
    ∃ t, exec (.op7xnn x nn) s = .next t ∧ (t.getV x).toNat = ((s.getV x).toNat + nn.toNat) % 256 ∧
      RegsKept [x] s t ∧ OnlyChanges [.v] s t

/-- R164 to R166: 8xy1, 8xy2 and 8xy3 leave in Vx each bit of Vx combined with that bit of Vy by OR, AND, XOR, and
change nothing else, VF included unless x is 0xF. -/
def Obligations.BitwiseOperations : Prop :=
  ∀ (s : State) (x y : Reg),
    (∃ t, exec (.op8xy1 x y) s = .next t ∧
      (∀ k, (t.getV x).getLsbD k = ((s.getV x).getLsbD k || (s.getV y).getLsbD k)) ∧
      RegsKept [x] s t ∧ OnlyChanges [.v] s t) ∧
    (∃ t, exec (.op8xy2 x y) s = .next t ∧
      (∀ k, (t.getV x).getLsbD k = ((s.getV x).getLsbD k && (s.getV y).getLsbD k)) ∧
      RegsKept [x] s t ∧ OnlyChanges [.v] s t) ∧
    (∃ t, exec (.op8xy3 x y) s = .next t ∧
      (∀ k, (t.getV x).getLsbD k = ((s.getV x).getLsbD k ^^ (s.getV y).getLsbD k)) ∧
      RegsKept [x] s t ∧ OnlyChanges [.v] s t)

/-- R167: 8xy4 leaves Vx = (Vx + Vy) mod 256 and, unless x is 0xF, VF = 1 exactly when the sum exceeds 255; with
x = 0xF the result stands in VF and the carry is lost. -/
def Obligations.AddSetsCarry : Prop :=
  ∀ (s : State) (x y : Reg),
    ∃ t, exec (.op8xy4 x y) s = .next t ∧
      (t.getV x).toNat = ((s.getV x).toNat + (s.getV y).toNat) % 256 ∧
      (x ≠ 15 → t.getV 15 = if 255 < (s.getV x).toNat + (s.getV y).toNat then 1 else 0) ∧
      RegsKept [x, 15] s t ∧ OnlyChanges [.v] s t

/-- R168: 8xy5. With f = 1 if Vx > Vy and 0 otherwise, read before: VF = f, then Vx = Vx - Vy mod 256, where an
operand that is VF is read after the flag write; all four cases of x and y against 0xF. -/
def Obligations.SubtractSetsNoBorrow : Prop :=
  ∀ (s : State) (x y : Reg) (f : Byte), f = (if (s.getV y).toNat < (s.getV x).toNat then 1 else 0) →
    ∃ t, exec (.op8xy5 x y) s = .next t ∧
      (x ≠ 15 → y ≠ 15 → t.getV 15 = f ∧
        (t.getV x).toNat = ((s.getV x).toNat + 256 - (s.getV y).toNat) % 256) ∧
      (x = 15 → y ≠ 15 → (t.getV 15).toNat = (f.toNat + 256 - (s.getV y).toNat) % 256) ∧
      (x ≠ 15 → y = 15 → t.getV 15 = f ∧ (t.getV x).toNat = ((s.getV x).toNat + 256 - f.toNat) % 256) ∧
      (x = 15 → y = 15 → t.getV 15 = 0) ∧
      RegsKept [x, 15] s t ∧ OnlyChanges [.v] s t

/-- R170: 8xy7. With f = 1 if Vy > Vx and 0 otherwise, read before: VF = f, then Vx = Vy - Vx mod 256, where an
operand that is VF is read after the flag write; all four cases of x and y against 0xF. -/
def Obligations.ReverseSubtractSetsNoBorrow : Prop :=
  ∀ (s : State) (x y : Reg) (f : Byte), f = (if (s.getV x).toNat < (s.getV y).toNat then 1 else 0) →
    ∃ t, exec (.op8xy7 x y) s = .next t ∧
      (x ≠ 15 → y ≠ 15 → t.getV 15 = f ∧
        (t.getV x).toNat = ((s.getV y).toNat + 256 - (s.getV x).toNat) % 256) ∧
      (x = 15 → y ≠ 15 → (t.getV 15).toNat = ((s.getV y).toNat + 256 - f.toNat) % 256) ∧
      (x ≠ 15 → y = 15 → t.getV 15 = f ∧ (t.getV x).toNat = (f.toNat + 256 - (s.getV x).toNat) % 256) ∧
      (x = 15 → y = 15 → t.getV 15 = 0) ∧
      RegsKept [x, 15] s t ∧ OnlyChanges [.v] s t

/-- R169: 8xy6. VF = bit 0 of Vy, then Vx = Vy shifted right by one, where Vy is read after the flag write; all
four cases of x and y against 0xF. Vy keeps its value when y is neither x nor 0xF. -/
def Obligations.ShiftRightSetsBitOut : Prop :=
  ∀ (s : State) (x y : Reg),
    ∃ t, exec (.op8xy6 x y) s = .next t ∧
      (x ≠ 15 → y ≠ 15 → (t.getV 15).toNat = (s.getV y).toNat % 2 ∧ (t.getV x).toNat = (s.getV y).toNat / 2) ∧
      (x = 15 → y ≠ 15 → (t.getV 15).toNat = (s.getV y).toNat / 2) ∧
      (x ≠ 15 → y = 15 → (t.getV 15).toNat = (s.getV 15).toNat % 2 ∧ t.getV x = 0) ∧
      (x = 15 → y = 15 → t.getV 15 = 0) ∧
      RegsKept [x, 15] s t ∧ OnlyChanges [.v] s t

/-- R171: 8xyE. VF = bit 7 of Vy, then Vx = Vy shifted left by one modulo 256, where Vy is read after the flag
write; all four cases of x and y against 0xF. Vy keeps its value when y is neither x nor 0xF. -/
def Obligations.ShiftLeftSetsBitOut : Prop :=
  ∀ (s : State) (x y : Reg),
    ∃ t, exec (.op8xyE x y) s = .next t ∧
      (x ≠ 15 → y ≠ 15 → (t.getV 15).toNat = (s.getV y).toNat / 128 ∧
        (t.getV x).toNat = 2 * (s.getV y).toNat % 256) ∧
      (x = 15 → y ≠ 15 → (t.getV 15).toNat = 2 * (s.getV y).toNat % 256) ∧
      (x ≠ 15 → y = 15 → (t.getV 15).toNat = (s.getV 15).toNat / 128 ∧
        (t.getV x).toNat = 2 * ((s.getV 15).toNat / 128)) ∧
      (x = 15 → y = 15 → (t.getV 15).toNat = 2 * ((s.getV 15).toNat / 128)) ∧
      RegsKept [x, 15] s t ∧ OnlyChanges [.v] s t

/-! ## Index register and memory (45_index_memory.md) -/

/-- R180, R181, R182: Annn leaves I = nnn, Fx1E leaves I = I + Vx modulo 2^16, Fx29 leaves I = 0x050 + 5 * Vx with
Vx not reduced; none changes anything else, VF included. -/
def Obligations.IndexRegisterLoads : Prop :=
  ∀ (s : State) (nnn : Addr12) (x : Reg),
    (∃ t, exec (.opAnnn nnn) s = .next t ∧ t.index.toNat = nnn.toNat ∧ OnlyChanges [.index] s t) ∧
    (∃ t, exec (.opFx1E x) s = .next t ∧ t.index.toNat = (s.index.toNat + (s.getV x).toNat) % 65536 ∧
      OnlyChanges [.index] s t) ∧
    (∃ t, exec (.opFx29 x) s = .next t ∧ t.index.toNat = 0x050 + 5 * (s.getV x).toNat ∧ OnlyChanges [.index] s t)

/-- R183: when I, I + 1 and I + 2 exist, Fx33 stores the hundreds, tens and ones of Vx there and changes no other
byte and nothing else; otherwise it raises MemoryOutOfRange with the first of them above 0xFFF, and nothing but
the `fault` register changes. -/
def Obligations.StoreBcdDigits : Prop :=
  ∀ (s : State) (x : Reg),
    (InRange s 3 →
      ∃ t, exec (.opFx33 x) s = .next t ∧
        (t.readByte (s.indexAddr 0)).toNat = (s.getV x).toNat / 100 ∧
        (t.readByte (s.indexAddr 1)).toNat = (s.getV x).toNat / 10 % 10 ∧
        (t.readByte (s.indexAddr 2)).toNat = (s.getV x).toNat % 10 ∧
        BytesKeptOutside (s.indexAddr 0) 3 s t ∧ OnlyChanges [.mem] s t) ∧
    (∀ a, FirstOutside s 3 a → ∃ t, exec (.opFx33 x) s = .next t ∧
      t.fault = some (.memoryOutOfRange (BitVec.ofNat 16 a)) ∧ OnlyChanges [.fault] s t)

/-- R184: when I to I + x exist, Fx55 stores V0 to Vx there, advances I by x + 1, and changes no other byte and
nothing else; otherwise it raises MemoryOutOfRange with the first of them above 0xFFF, and nothing but the `fault`
register changes. -/
def Obligations.StoreRegistersAdvancesIndex : Prop :=
  ∀ (s : State) (x : Reg),
    (InRange s (x.val + 1) →
      ∃ t, exec (.opFx55 x) s = .next t ∧
        (∀ k : Reg, k ≤ x → t.readByte (s.indexAddr k.val) = s.getV k) ∧
        t.index.toNat = s.index.toNat + x.val + 1 ∧
        BytesKeptOutside (s.indexAddr 0) (x.val + 1) s t ∧ OnlyChanges [.mem, .index] s t) ∧
    (∀ a, FirstOutside s (x.val + 1) a → ∃ t, exec (.opFx55 x) s = .next t ∧
      t.fault = some (.memoryOutOfRange (BitVec.ofNat 16 a)) ∧ OnlyChanges [.fault] s t)

/-- R185: when I to I + x exist, Fx65 loads V0 to Vx from there, advances I by x + 1, keeps the registers above
Vx, and changes nothing else; otherwise it raises MemoryOutOfRange with the first of them above 0xFFF, and nothing
but the `fault` register changes. -/
def Obligations.LoadRegistersAdvancesIndex : Prop :=
  ∀ (s : State) (x : Reg),
    (InRange s (x.val + 1) →
      ∃ t, exec (.opFx65 x) s = .next t ∧
        (∀ k : Reg, k ≤ x → t.getV k = s.readByte (s.indexAddr k.val)) ∧
        (∀ k : Reg, x < k → t.getV k = s.getV k) ∧
        t.index.toNat = s.index.toNat + x.val + 1 ∧ OnlyChanges [.v, .index] s t) ∧
    (∀ a, FirstOutside s (x.val + 1) a → ∃ t, exec (.opFx65 x) s = .next t ∧
      t.fault = some (.memoryOutOfRange (BitVec.ofNat 16 a)) ∧ OnlyChanges [.fault] s t)

/-- 20_memory.md R64, 60_exceptions.md R201: a data instruction with an address above 0xFFF raises
MemoryOutOfRange with the first such address (0x1000 when I is at most 0xFFF, I itself above), and nothing but
the `fault` register changes. -/
def Obligations.OutOfRangeAccessRaises : Prop :=
  ∀ (s : State) (x y : Reg) (n : Nibble) (a : Word), a = (if s.index.toNat ≤ 0xFFF then 0x1000 else s.index) →
    (n ≠ 0 → 0x1000 < s.index.toNat + n.toNat → ∃ t, exec (.opDxyn x y n) s = .next t ∧
      t.fault = some (.memoryOutOfRange a) ∧ OnlyChanges [.fault] s t) ∧
    (0x1000 < s.index.toNat + 3 → ∃ t, exec (.opFx33 x) s = .next t ∧
      t.fault = some (.memoryOutOfRange a) ∧ OnlyChanges [.fault] s t) ∧
    (0x1000 < s.index.toNat + x.val + 1 →
      (∃ t, exec (.opFx55 x) s = .next t ∧ t.fault = some (.memoryOutOfRange a) ∧ OnlyChanges [.fault] s t) ∧
      (∃ t, exec (.opFx65 x) s = .next t ∧ t.fault = some (.memoryOutOfRange a) ∧ OnlyChanges [.fault] s t))

/-- R184, R185, C10: V0 to Vx stored by Fx55 come back exactly by an Fx65 with the same x, run with the memory the
store left and I set back to where the store began, and I advances to the same place again. -/
def Obligations.StoreThenLoadRestoresRegisters : Prop :=
  ∀ (s : State) (x : Reg), InRange s (x.val + 1) →
    ∃ t, exec (.opFx55 x) s = .next t ∧
      ∀ u : State, (∀ a, u.readByte a = t.readByte a) → u.index = s.index →
        ∃ w, exec (.opFx65 x) u = .next w ∧ (∀ k : Reg, k ≤ x → w.getV k = s.getV k) ∧ w.index = t.index

/-- 20_memory.md R73: every byte that Fx55 or Fx33 stores is seen by a fetch that reads it, from pc as the high byte
of the word and from pc + 1 as the low byte, whatever else has changed since in the state but memory. So each pair
of adjacent stored bytes is a fetched word. -/
def Obligations.StoredBytesAreFetched : Prop :=
  ∀ (s : State) (x : Reg),
    (InRange s (x.val + 1) → ∃ t, exec (.opFx55 x) s = .next t ∧
      ∀ u : State, (∀ a, u.readByte a = t.readByte a) → u.pc.toNat + 1 ≤ 0xFFF →
        ∃ w, u.fetchWord = some w ∧
          ∀ k : Reg, k ≤ x → (u.pc.toNat = s.indexAddr k.val → w.extractLsb' 8 8 = s.getV k) ∧
            (u.pc.toNat + 1 = s.indexAddr k.val → w.extractLsb' 0 8 = s.getV k)) ∧
    (InRange s 3 → ∃ t, exec (.opFx33 x) s = .next t ∧
      ∀ u : State, (∀ a, u.readByte a = t.readByte a) → u.pc.toNat + 1 ≤ 0xFFF →
        ∃ w, u.fetchWord = some w ∧
          ∀ (k : Nat) (b : Byte), (bcdDigits (s.getV x))[k]? = some b →
            (u.pc.toNat = s.indexAddr k → w.extractLsb' 8 8 = b) ∧
            (u.pc.toNat + 1 = s.indexAddr k → w.extractLsb' 0 8 = b))

/-! ## Random, keypad and timer instructions (46_random_timer_keypad.md) -/

/-- R190: Cxnn leaves in Vx the free byte of this draw ANDed with nn, so that the bits of Vx are a subset of the
bits of nn; the next draw is another one; nothing else changes. It holds whatever the free bytes are (log 2). -/
def Obligations.RandomByteIsMasked : Prop :=
  ∀ (s : State) (x : Reg) (nn : Byte),
    ∃ t, exec (.opCxnn x nn) s = .next t ∧ t.getV x = Config.rand s.draws &&& nn ∧
      (∀ k, (t.getV x).getLsbD k = true → nn.getLsbD k = true) ∧ t.draws = s.draws + 1 ∧
      RegsKept [x] s t ∧ OnlyChanges [.v, .draws] s t

/-- R191, R192: with Vx = k at most 0xF, Ex9E adds 2 to pc when key k is pressed and ExA1 when it is not, and
nothing else changes; with Vx above 0xF both raise KeyIndexOutOfRange(Vx), and nothing but the `fault` register
changes. -/
def Obligations.KeySkips : Prop :=
  ∀ (s : State) (x : Reg),
    (∀ k : Fin 16, (s.getV x).toNat = k.val →
      (∃ t, exec (.opEx9E x) s = .next t ∧
        t.pc = (if s.keys[k.val] = true then s.pc + 2 else s.pc) ∧ OnlyChanges [.pc] s t) ∧
      (∃ t, exec (.opExA1 x) s = .next t ∧
        t.pc = (if s.keys[k.val] = true then s.pc else s.pc + 2) ∧ OnlyChanges [.pc] s t)) ∧
    (0xF < (s.getV x).toNat →
      (∃ t, exec (.opEx9E x) s = .next t ∧
        t.fault = some (.keyIndexOutOfRange (s.getV x)) ∧ OnlyChanges [.fault] s t) ∧
      (∃ t, exec (.opExA1 x) s = .next t ∧
        t.fault = some (.keyIndexOutOfRange (s.getV x)) ∧ OnlyChanges [.fault] s t))

/-- R194: Fx0A leaves the number of the least pressed key in Vx; with no key pressed it takes 2 from pc and
changes nothing else. -/
def Obligations.KeyWaitPolls : Prop :=
  ∀ (s : State) (x : Reg),
    ((∀ k : Fin 16, s.keys[k.val] = false) →
      ∃ t, exec (.opFx0A x) s = .next t ∧ t.pc = s.pc - 2 ∧ OnlyChanges [.pc] s t) ∧
    (∀ k : Fin 16, s.keys[k.val] = true → (∀ j : Fin 16, j < k → s.keys[j.val] = false) →
      ∃ t, exec (.opFx0A x) s = .next t ∧ (t.getV x).toNat = k.val ∧ RegsKept [x] s t ∧ OnlyChanges [.v] s t)

/-- R193, R195, R196: Fx07 leaves Vx = DT, Fx15 leaves DT = Vx, Fx18 leaves ST = Vx; nothing else changes. -/
def Obligations.TimerMoves : Prop :=
  ∀ (s : State) (x : Reg),
    (∃ t, exec (.opFx07 x) s = .next t ∧ t.getV x = s.dt ∧ RegsKept [x] s t ∧ OnlyChanges [.v] s t) ∧
    (∃ t, exec (.opFx15 x) s = .next t ∧ t.dt = s.getV x ∧ OnlyChanges [.dt] s t) ∧
    (∃ t, exec (.opFx18 x) s = .next t ∧ t.st = s.getV x ∧ OnlyChanges [.st] s t)

/-! ## Encoding (30_encoding.md) -/

/-- R81 to R91: decoding the word of a well-formed instruction gives it back, with every operand at every value,
and so does decoding its two bytes. -/
def Obligations.DecodeEncodeRoundTrip : Prop :=
  ∀ i : Instr, WellFormed i = true →
    decodeWord (encode i) = i ∧ ∀ rest, decode (encodeBytes i ++ rest) = .ok (i, rest)

/-- R91: encoding what a word decodes to gives the canonical word, in which only the ignored bits can differ, and
the canonical word decodes to the same instruction. -/
def Obligations.EncodeGivesCanonicalWord : Prop :=
  ∀ w : Word, encode (decodeWord w) = canonicalWord w ∧ decodeWord (canonicalWord w) = decodeWord w

/-- R94: the two-level decoder of R84 to R90 and the opcode map of match and mask values select the same row for
every word, the no-op where the map has no row. -/
def Obligations.TwoLevelDecodeEqualsOpcodeMap : Prop :=
  ∀ w : Word, (decodeWord w).mnemonic = tableMnemonic w

/-- R94: no word selects two rows of the opcode map. -/
def Obligations.OpcodeRowsDisjoint : Prop :=
  ∀ (w : Word) (q r : OpcodeRow), q ∈ opcodeTable → r ∈ opcodeTable → selects w q = true → selects w r = true → q = r

/-- R90: the decoder gives a no-op for exactly the unrecognized words, that no-op keeps the word, and the decoder
gives nothing ill-formed. -/
def Obligations.NoOpForUnrecognizedWords : Prop :=
  ∀ w : Word, ((∃ u, decodeWord w = .opNOP u) ↔ unrecognized w = true) ∧
    (∀ u, decodeWord w = .opNOP u → u = w) ∧ WellFormed (decodeWord w) = true

/-- R84 to R91: words written out from the encodings decode to the instructions they stand for. -/
def Obligations.WrittenWordsDecode : Prop :=
  decode [0x0F, 0xFE] = .ok (.op00EE, []) ∧ decode [0x2A, 0xBC] = .ok (.op2nnn 0xABC, []) ∧
  decode [0x3F, 0x00] = .ok (.op3xnn 0xF 0x00, []) ∧ decode [0x51, 0x21] = .ok (.op5xy0 0x1 0x2, []) ∧
  decode [0x8A, 0xBE] = .ok (.op8xyE 0xA 0xB, []) ∧ decode [0xD1, 0x2F] = .ok (.opDxyn 0x1 0x2 0xF, []) ∧
  decode [0xE1, 0xAE] = .ok (.opEx9E 0x1, []) ∧ decode [0xF3, 0x65] = .ok (.opFx65 0x3, []) ∧
  decode [0x80, 0x08] = .ok (.opNOP 0x8008, []) ∧ decode [0x12] = .error .fewerThanTwoBytes

/-! ## Host actions (60_exceptions.md, 70_reset_and_hazards.md) -/

/-- R230: `reset` gives every element its reset value for the core's FONT, whatever the core held and however far
the host had come. The counter of the draws goes on and the events stay emitted: those two fields are the model's
(log 2, log 3). -/
def Obligations.HostResetConstructs : Prop :=
  ∀ (font : FontTable) (z : Session), ∃ w, act font .reset z = .next w ∧
    OnlyChanges [.draws, .diag] (State.resetWith font) w.state ∧
    w.state.draws = z.state.draws ∧ w.state.diag = z.state.diag ∧ w.phase = .built

/-- R214, R235: `load_rom` is admitted after `reset` and before the first `cycle`, and `cycle`, which is one step,
any time after `reset`. The model's choice (log 6) is each of these: every action but `reset` is refused before the
first `reset`; a second `load_rom`, or one after a `cycle`, is refused, where the spec says only that it is not
modelled (D24); and a `load_rom` that answers RomTooLarge uses up the one `load_rom`, as any other does. -/
def Obligations.HostActionOrder : Prop :=
  ∀ (font : FontTable) (z : Session) (a : Action) (b : List Byte),
    (z.phase = .unbuilt → a ≠ .reset → act font a z = .refused .notReset) ∧
    (z.phase = .built → act font (.loadRom b) z =
      .next { state := z.state.loadRom b, phase := .loaded, romResult := some (loadResult b) }) ∧
    (z.phase = .loaded ∨ z.phase = .running → act font (.loadRom b) z = .refused .loadRomOutOfOrder) ∧
    (z.phase ≠ .unbuilt → ∀ t, step z.state = .next t →
      act font .cycle z = .next { state := t, phase := .running, romResult := z.romResult })

/-- R233, R234: a ROM of at most 3584 bytes is copied to 0x200 and nothing else changes; a longer one is rejected
with RomTooLarge and nothing changes. -/
def Obligations.LoadRomCopiesOrRejects : Prop :=
  ∀ (s : State) (rom : List Byte),
    (rom.length ≤ 3584 → loadResult rom = .ok ∧
      (∀ k b, rom[k]? = some b → (s.loadRom rom).readByte (0x200 + k) = b) ∧
      BytesKeptOutside 0x200 rom.length s (s.loadRom rom) ∧ OnlyChanges [.mem] s (s.loadRom rom)) ∧
    (3584 < rom.length → loadResult rom = .romTooLarge ∧ s.loadRom rom = s)

/-- R211, R212: after `reset`, a tick takes 1 from its timer unless it is zero, and `set_keys` writes all sixteen
keys; each is admitted at any point between cycles and changes nothing else. -/
def Obligations.TicksAndKeyWrites : Prop :=
  ∀ (font : FontTable) (z : Session) (k : Vector Bool 16), z.phase ≠ .unbuilt →
    (∃ w, act font .tickDt z = .next w ∧ w.state.dt.toNat = z.state.dt.toNat - 1 ∧ w.phase = z.phase ∧
      OnlyChanges [.dt] z.state w.state) ∧
    (∃ w, act font .tickSt z = .next w ∧ w.state.st.toNat = z.state.st.toNat - 1 ∧ w.phase = z.phase ∧
      OnlyChanges [.st] z.state w.state) ∧
    (∃ w, act font (.setKeys k) z = .next w ∧ w.state.keys = k ∧ w.phase = z.phase ∧
      OnlyChanges [.keys] z.state w.state)

/-- R236, R194: a Cycle() from a parked or a polling state changes no element but `opcode`, which it sets to the
fetched word; a parked state stays parked, and from the second such Cycle() on nothing changes at all; a polling
state stays polling, so that its pc is what it was. -/
def Obligations.ParkedAndPollingStatesStay : Prop :=
  ∀ s : State,
    (Parked s → ∃ t, step s = .next t ∧ some t.opcode = s.fetchWord ∧ OnlyChanges [.opcode] s t ∧ Parked t ∧
      step t = .next t) ∧
    (Polling s → ∃ t, step s = .next t ∧ some t.opcode = s.fetchWord ∧ OnlyChanges [.opcode] s t ∧ Polling t)
end

