-- ==== Sys2Proof/Laws/Encode.lean ====
section
/-! SUPPORT. The fields of an encoded word read back, a word put together again from its nibbles, and how a word
selects a row of the opcode map by its nibbles. -/

namespace Sys2Proof

/-! ## A word and its nibbles -/

/-- A word is its four nibbles. -/
theorem word_eq_nibbles (w : Word) :
    w = w.extractLsb' 12 4 ++ (w.extractLsb' 8 4 ++ (w.extractLsb' 4 4 ++ w.extractLsb' 0 4 : Byte) : BitVec 12) := by
  apply BitVec.eq_of_getLsbD_eq
  intro i hi
  simp only [BitVec.getLsbD_append, BitVec.getLsbD_extractLsb']
  interval_cases i <;> simp

theorem regBits_toReg (n : Nibble) : regBits ⟨n.toNat, n.isLt⟩ = n := by simp [regBits]

theorem toReg_regBits (x : Reg) : (⟨(regBits x).toNat, (regBits x).isLt⟩ : Reg) = x := by
  apply Fin.ext; simp [regBits]

/-! ## The fields of an encoded word -/

theorem opField_append (op : Nibble) (rest : BitVec 12) : opField (op ++ rest : Word) = op :=
  BitVec.extractLsb'_append_eq_left

theorem nnnField_append (op : Nibble) (rest : BitVec 12) : nnnField (op ++ rest : Word) = rest :=
  BitVec.extractLsb'_append_eq_right

theorem xField_append (op x : Nibble) (nn : Byte) :
    xField (op ++ (x ++ nn : BitVec 12) : Word) = ⟨x.toNat, x.isLt⟩ := by
  apply Fin.ext
  show (BitVec.extractLsb' 8 4 (op ++ (x ++ nn : BitVec 12) : Word)).toNat = x.toNat
  rw [BitVec.extractLsb'_append_eq_of_add_le (by decide)]
  exact congrArg BitVec.toNat BitVec.extractLsb'_append_eq_left

theorem xField_regBits (op : Nibble) (x : Reg) (nn : Byte) :
    xField (op ++ (regBits x ++ nn : BitVec 12) : Word) = x := by
  rw [xField_append, toReg_regBits]

theorem nnField_append (op x : Nibble) (nn : Byte) :
    nnField (op ++ (x ++ nn : BitVec 12) : Word) = nn := by
  show BitVec.extractLsb' 0 8 (op ++ (x ++ nn : BitVec 12) : Word) = nn
  rw [BitVec.extractLsb'_append_eq_of_add_le (by decide)]
  exact BitVec.extractLsb'_append_eq_right

theorem nField_of_nnField (w : Word) : nField w = (nnField w).extractLsb' 0 4 := by
  apply BitVec.eq_of_getLsbD_eq
  intro i hi
  simp only [nField, nnField, BitVec.getLsbD_extractLsb']
  simp [show i < 8 by omega]

theorem yField_of_nnField (w : Word) :
    yField w = ⟨((nnField w).extractLsb' 4 4).toNat, ((nnField w).extractLsb' 4 4).isLt⟩ := by
  apply Fin.ext
  show (w.extractLsb' 4 4).toNat = ((nnField w).extractLsb' 4 4).toNat
  congr 1
  apply BitVec.eq_of_getLsbD_eq
  intro i hi
  simp only [nnField, BitVec.getLsbD_extractLsb']
  simp [show 4 + i < 8 by omega]

theorem nField_append (op x : Nibble) (nn : Byte) :
    nField (op ++ (x ++ nn : BitVec 12) : Word) = nn.extractLsb' 0 4 := by
  rw [nField_of_nnField, nnField_append]

theorem nField_nibbles (op x y n : Nibble) :
    nField (op ++ (x ++ (y ++ n : Byte) : BitVec 12) : Word) = n := by
  rw [nField_append]; exact BitVec.extractLsb'_append_eq_right

theorem yField_append (op x y n : Nibble) :
    yField (op ++ (x ++ (y ++ n : Byte) : BitVec 12) : Word) = ⟨y.toNat, y.isLt⟩ := by
  rw [yField_of_nnField]
  apply Fin.ext
  show (BitVec.extractLsb' 4 4 (nnField (op ++ (x ++ (y ++ n : Byte) : BitVec 12) : Word))).toNat = y.toNat
  rw [nnField_append]
  exact congrArg BitVec.toNat BitVec.extractLsb'_append_eq_left

theorem yField_regBits (op x : Nibble) (y : Reg) (n : Nibble) :
    yField (op ++ (x ++ (regBits y ++ n : Byte) : BitVec 12) : Word) = y := by
  rw [yField_append, toReg_regBits]

/-! ## The fields of each format -/

@[simp] theorem opField_formatA (op : Nibble) (nnn : Addr12) : opField (formatA op nnn) = op := opField_append _ _
@[simp] theorem nnnField_formatA (op : Nibble) (nnn : Addr12) : nnnField (formatA op nnn) = nnn :=
  nnnField_append _ _
@[simp] theorem opField_formatXB (op : Nibble) (x : Reg) (nn : Byte) : opField (formatXB op x nn) = op :=
  opField_append _ _
@[simp] theorem xField_formatXB (op : Nibble) (x : Reg) (nn : Byte) : xField (formatXB op x nn) = x :=
  xField_regBits _ _ _
@[simp] theorem nnField_formatXB (op : Nibble) (x : Reg) (nn : Byte) : nnField (formatXB op x nn) = nn :=
  nnField_append _ _ _
@[simp] theorem nField_formatXB (op : Nibble) (x : Reg) (nn : Byte) :
    nField (formatXB op x nn) = nn.extractLsb' 0 4 := nField_append _ _ _
@[simp] theorem opField_formatXY (op : Nibble) (x y : Reg) (n : Nibble) : opField (formatXY op x y n) = op :=
  opField_append _ _
@[simp] theorem xField_formatXY (op : Nibble) (x y : Reg) (n : Nibble) : xField (formatXY op x y n) = x :=
  xField_regBits _ _ _
@[simp] theorem yField_formatXY (op : Nibble) (x y : Reg) (n : Nibble) : yField (formatXY op x y n) = y :=
  yField_regBits _ _ _ _
@[simp] theorem nField_formatXY (op : Nibble) (x y : Reg) (n : Nibble) : nField (formatXY op x y n) = n :=
  nField_nibbles _ _ _ _

/-! ## The fields as numbers -/

theorem opField_toNat (w : Word) : (opField w).toNat = w.toNat / 4096 := by
  have := w.isLt
  simp [opField, Nat.shiftRight_eq_div_pow]; omega

theorem nField_toNat (w : Word) : (nField w).toNat = w.toNat % 16 := by simp [nField]

theorem nnField_toNat (w : Word) : (nnField w).toNat = w.toNat % 256 := by simp [nnField]

/-! ## Selecting a row (R94) -/

/-- Two words put together from nibbles are equal when the nibbles are. -/
theorem nibbles_inj {a b c d a' b' c' d' : Nibble} :
    (a ++ (b ++ (c ++ d : Byte) : BitVec 12) : Word) = a' ++ (b' ++ (c' ++ d' : Byte) : BitVec 12) ↔
      a = a' ∧ b = b' ∧ c = c' ∧ d = d' := by
  constructor
  · intro h
    have h1 := congrArg (fun w => BitVec.extractLsb' 12 4 w) h
    have h2 := congrArg (fun w => BitVec.extractLsb' 0 12 w) h
    simp only [BitVec.extractLsb'_append_eq_left, BitVec.extractLsb'_append_eq_right] at h1 h2
    have h3 := congrArg (fun w => BitVec.extractLsb' 8 4 w) h2
    have h4 := congrArg (fun w => BitVec.extractLsb' 0 8 w) h2
    simp only [BitVec.extractLsb'_append_eq_left, BitVec.extractLsb'_append_eq_right] at h3 h4
    have h5 := congrArg (fun w => BitVec.extractLsb' 4 4 w) h4
    have h6 := congrArg (fun w => BitVec.extractLsb' 0 4 w) h4
    simp only [BitVec.extractLsb'_append_eq_left, BitVec.extractLsb'_append_eq_right] at h5 h6
    exact ⟨h1, h3, h5, h6⟩
  · rintro ⟨rfl, rfl, rfl, rfl⟩; rfl

/-- A word selects a row when each of its nibbles does, under that nibble of the mask. -/
theorem selects_eq_nibbles (w : Word) (r : OpcodeRow) :
    selects w r = decide (
      w.extractLsb' 12 4 &&& r.mask.extractLsb' 12 4 = r.pattern.extractLsb' 12 4 ∧
      w.extractLsb' 8 4 &&& r.mask.extractLsb' 8 4 = r.pattern.extractLsb' 8 4 ∧
      w.extractLsb' 4 4 &&& r.mask.extractLsb' 4 4 = r.pattern.extractLsb' 4 4 ∧
      w.extractLsb' 0 4 &&& r.mask.extractLsb' 0 4 = r.pattern.extractLsb' 0 4) := by
  unfold selects
  rw [show ∀ a b : Word, (a == b) = decide (a = b) from fun _ _ => rfl]
  apply decide_eq_decide.2
  conv_lhs => rw [word_eq_nibbles w, word_eq_nibbles r.mask, word_eq_nibbles r.pattern]
  show (_ ++ (_ ++ (_ ++ _ : Byte) : BitVec 12) : Word) &&& (_ ++ (_ ++ (_ ++ _ : Byte) : BitVec 12) : Word) = _ ↔ _
  rw [BitVec.and_append, BitVec.and_append, BitVec.and_append, nibbles_inj]

/-- Whether four nibbles select a row. -/
def nibblesSelect (op x y n : Nibble) (r : OpcodeRow) : Bool :=
  decide (op &&& r.mask.extractLsb' 12 4 = r.pattern.extractLsb' 12 4 ∧
    x &&& r.mask.extractLsb' 8 4 = r.pattern.extractLsb' 8 4 ∧
    y &&& r.mask.extractLsb' 4 4 = r.pattern.extractLsb' 4 4 ∧
    n &&& r.mask.extractLsb' 0 4 = r.pattern.extractLsb' 0 4)

theorem selects_formatA (op : Nibble) (nnn : Addr12) (name : String) :
    selects (formatA op nnn) ⟨name, op ++ 0#12, 0xF#4 ++ 0#12⟩ = true := by
  have h : (op ++ nnn : Word) &&& (0xF#4 ++ 0#12 : Word) = op ++ 0#12 := by
    rw [BitVec.and_append, show (0xF#4 : Nibble) = BitVec.allOnes 4 from rfl, BitVec.and_allOnes, BitVec.and_zero]
  simpa [selects, formatA] using h

theorem selects_formatXB (op : Nibble) (x : Reg) (nn : Byte) (name : String) :
    selects (formatXB op x nn) ⟨name, op ++ (0#4 ++ nn : BitVec 12), 0xF#4 ++ (0#4 ++ 0xFF#8 : BitVec 12)⟩ = true := by
  have h : (op ++ (regBits x ++ nn : BitVec 12) : Word) &&& (0xF#4 ++ (0#4 ++ 0xFF#8 : BitVec 12) : Word) =
      op ++ (0#4 ++ nn : BitVec 12) := by
    rw [BitVec.and_append, BitVec.and_append, show (0xF#4 : Nibble) = BitVec.allOnes 4 from rfl,
      show (0xFF#8 : Byte) = BitVec.allOnes 8 from rfl, BitVec.and_allOnes, BitVec.and_allOnes, BitVec.and_zero]
  simpa [selects, formatXB] using h

theorem selects_formatXY (op : Nibble) (x y : Reg) (n : Nibble) (name : String) :
    selects (formatXY op x y n)
      ⟨name, op ++ (0#4 ++ (0#4 ++ n : Byte) : BitVec 12), 0xF#4 ++ (0#4 ++ (0#4 ++ 0xF#4 : Byte) : BitVec 12)⟩ =
        true := by
  have h : (op ++ (regBits x ++ (regBits y ++ n : Byte) : BitVec 12) : Word) &&&
      (0xF#4 ++ (0#4 ++ (0#4 ++ 0xF#4 : Byte) : BitVec 12) : Word) =
      op ++ (0#4 ++ (0#4 ++ n : Byte) : BitVec 12) := by
    rw [BitVec.and_append, BitVec.and_append, BitVec.and_append,
      show (0xF#4 : Nibble) = BitVec.allOnes 4 from rfl, BitVec.and_allOnes, BitVec.and_allOnes,
      BitVec.and_zero, BitVec.and_zero]
  simpa [selects, formatXY] using h

/-- The four cases of R90, by nibbles. -/
theorem unrecognized_cases {w : Word} (h : unrecognized w = true) :
    (w.extractLsb' 12 4 = 0x0 ∧ w.extractLsb' 0 4 ≠ 0x0 ∧ w.extractLsb' 0 4 ≠ 0xE) ∨
    (w.extractLsb' 12 4 = 0x8 ∧ 0x8 ≤ w.extractLsb' 0 4 ∧ w.extractLsb' 0 4 ≠ 0xE) ∨
    (w.extractLsb' 12 4 = 0xE ∧ w.extractLsb' 0 4 ≠ 0x1 ∧ w.extractLsb' 0 4 ≠ 0xE) ∨
    (w.extractLsb' 12 4 = 0xF ∧
      [0x07, 0x0A, 0x15, 0x18, 0x1E, 0x29, 0x33, 0x55, 0x65].contains
        (16 * (w.extractLsb' 4 4).toNat + (w.extractLsb' 0 4).toNat) = false) := by
  have hop : (w.extractLsb' 12 4).toNat = w.toNat / 4096 := by
    have := w.isLt
    simp [Nat.shiftRight_eq_div_pow]; omega
  have hn : (w.extractLsb' 0 4).toNat = w.toNat % 16 := by simp
  have hnn : 16 * (w.extractLsb' 4 4).toNat + (w.extractLsb' 0 4).toNat = w.toNat % 256 := by
    simp [Nat.shiftRight_eq_div_pow]; omega
  rw [hnn]
  simp only [← BitVec.toNat_inj, BitVec.le_def, ne_eq, hop, hn, unrecognized, Bool.or_eq_true, Bool.and_eq_true,
    beq_iff_eq, bne_iff_ne, decide_eq_true_eq, Bool.not_eq_true'] at h ⊢
  rcases h with ((h | h) | h) | h
  · exact .inl ⟨h.1.1, h.1.2, h.2⟩
  · exact .inr (.inl ⟨h.1.1, h.1.2, h.2⟩)
  · exact .inr (.inr (.inl ⟨h.1.1, h.1.2, h.2⟩))
  · exact .inr (.inr (.inr h))

theorem no_row_cat0 : ∀ y n : Nibble, n ≠ 0x0 → n ≠ 0xE → opcodeTable.any (nibblesSelect 0x0 0 y n) = false := by
  decide
theorem no_row_cat8 : ∀ y n : Nibble, 0x8 ≤ n → n ≠ 0xE → opcodeTable.any (nibblesSelect 0x8 0 y n) = false := by
  decide
theorem no_row_catE : ∀ y n : Nibble, n ≠ 0x1 → n ≠ 0xE → opcodeTable.any (nibblesSelect 0xE 0 y n) = false := by
  decide
theorem no_row_catF : ∀ y n : Nibble,
    [0x07, 0x0A, 0x15, 0x18, 0x1E, 0x29, 0x33, 0x55, 0x65].contains (16 * y.toNat + n.toNat) = false →
      opcodeTable.any (nibblesSelect 0xF 0 y n) = false := by
  decide

/-- No row looks at the x nibble. -/
theorem table_ignores_x : ∀ r ∈ opcodeTable, r.mask.extractLsb' 8 4 = 0 := by decide

/-- An unrecognized word (R90) selects no row. -/
theorem selects_unrecognized {w : Word} (h : unrecognized w = true) : ∀ r ∈ opcodeTable, selects w r = false := by
  have hany : opcodeTable.any (nibblesSelect (w.extractLsb' 12 4) 0 (w.extractLsb' 4 4) (w.extractLsb' 0 4)) =
      false := by
    rcases unrecognized_cases h with ⟨e, h⟩ | ⟨e, h⟩ | ⟨e, h⟩ | ⟨e, h⟩ <;> rw [e]
    · exact no_row_cat0 _ _ h.1 h.2
    · exact no_row_cat8 _ _ h.1 h.2
    · exact no_row_catE _ _ h.1 h.2
    · exact no_row_catF _ _ h
  intro r hr
  have := List.any_eq_false.1 hany r hr
  rw [selects_eq_nibbles, table_ignores_x r hr]
  simpa [nibblesSelect, table_ignores_x r hr] using this

end Sys2Proof
end

