-- ==== Sys2Proof/Laws/State.lean ====
section
/-! SUPPORT. What each update of the state does to each field and to each view of the state: the simp set that
spares every later proof the unfolding of a record update. -/

namespace Sys2Proof.Machine

variable (s : State)

/-! ### writeByte -/

@[simp] theorem State.writeByte_mem (a : Nat) (b : Byte) : (s.writeByte a b).mem = s.mem.write a b := rfl
@[simp] theorem State.writeByte_v (a : Nat) (b : Byte) : (s.writeByte a b).v = s.v := rfl
@[simp] theorem State.writeByte_index (a : Nat) (b : Byte) : (s.writeByte a b).index = s.index := rfl
@[simp] theorem State.writeByte_pc (a : Nat) (b : Byte) : (s.writeByte a b).pc = s.pc := rfl
@[simp] theorem State.writeByte_stack (a : Nat) (b : Byte) : (s.writeByte a b).stack = s.stack := rfl
@[simp] theorem State.writeByte_sp (a : Nat) (b : Byte) : (s.writeByte a b).sp = s.sp := rfl
@[simp] theorem State.writeByte_dt (a : Nat) (b : Byte) : (s.writeByte a b).dt = s.dt := rfl
@[simp] theorem State.writeByte_st (a : Nat) (b : Byte) : (s.writeByte a b).st = s.st := rfl
@[simp] theorem State.writeByte_keys (a : Nat) (b : Byte) : (s.writeByte a b).keys = s.keys := rfl
@[simp] theorem State.writeByte_fb (a : Nat) (b : Byte) : (s.writeByte a b).fb = s.fb := rfl
@[simp] theorem State.writeByte_opcode (a : Nat) (b : Byte) : (s.writeByte a b).opcode = s.opcode := rfl
@[simp] theorem State.writeByte_fault (a : Nat) (b : Byte) : (s.writeByte a b).fault = s.fault := rfl
@[simp] theorem State.writeByte_draws (a : Nat) (b : Byte) : (s.writeByte a b).draws = s.draws := rfl
@[simp] theorem State.writeByte_diag (a : Nat) (b : Byte) : (s.writeByte a b).diag = s.diag := rfl
@[simp] theorem State.getV_writeByte (a : Nat) (b : Byte) (q : Reg) : (s.writeByte a b).getV q = s.getV q := rfl
@[simp] theorem State.pixel_writeByte (a : Nat) (b : Byte) (c' r' : Nat) : (s.writeByte a b).pixel c' r' = s.pixel c' r' := rfl
@[simp] theorem State.indexAddr_writeByte (a : Nat) (b : Byte) (q : Nat) : (s.writeByte a b).indexAddr q = s.indexAddr q := rfl

/-! ### raise -/

@[simp] theorem State.raise_mem (c : Cause) : (s.raise c).mem = s.mem := rfl
@[simp] theorem State.raise_v (c : Cause) : (s.raise c).v = s.v := rfl
@[simp] theorem State.raise_index (c : Cause) : (s.raise c).index = s.index := rfl
@[simp] theorem State.raise_pc (c : Cause) : (s.raise c).pc = s.pc := rfl
@[simp] theorem State.raise_stack (c : Cause) : (s.raise c).stack = s.stack := rfl
@[simp] theorem State.raise_sp (c : Cause) : (s.raise c).sp = s.sp := rfl
@[simp] theorem State.raise_dt (c : Cause) : (s.raise c).dt = s.dt := rfl
@[simp] theorem State.raise_st (c : Cause) : (s.raise c).st = s.st := rfl
@[simp] theorem State.raise_keys (c : Cause) : (s.raise c).keys = s.keys := rfl
@[simp] theorem State.raise_fb (c : Cause) : (s.raise c).fb = s.fb := rfl
@[simp] theorem State.raise_opcode (c : Cause) : (s.raise c).opcode = s.opcode := rfl
@[simp] theorem State.raise_fault (c : Cause) : (s.raise c).fault = some c := rfl
@[simp] theorem State.raise_draws (c : Cause) : (s.raise c).draws = s.draws := rfl
@[simp] theorem State.raise_diag (c : Cause) : (s.raise c).diag = s.diag := rfl
@[simp] theorem State.getV_raise (c : Cause) (q : Reg) : (s.raise c).getV q = s.getV q := rfl
@[simp] theorem State.readByte_raise (c : Cause) (q : Nat) : (s.raise c).readByte q = s.readByte q := rfl
@[simp] theorem State.pixel_raise (c : Cause) (c' r' : Nat) : (s.raise c).pixel c' r' = s.pixel c' r' := rfl
@[simp] theorem State.indexAddr_raise (c : Cause) (q : Nat) : (s.raise c).indexAddr q = s.indexAddr q := rfl

/-! ### setV -/

@[simp] theorem State.setV_mem (r : Reg) (b : Byte) : (s.setV r b).mem = s.mem := rfl
@[simp] theorem State.setV_v (r : Reg) (b : Byte) : (s.setV r b).v = s.v.set r.val b := rfl
@[simp] theorem State.setV_index (r : Reg) (b : Byte) : (s.setV r b).index = s.index := rfl
@[simp] theorem State.setV_pc (r : Reg) (b : Byte) : (s.setV r b).pc = s.pc := rfl
@[simp] theorem State.setV_stack (r : Reg) (b : Byte) : (s.setV r b).stack = s.stack := rfl
@[simp] theorem State.setV_sp (r : Reg) (b : Byte) : (s.setV r b).sp = s.sp := rfl
@[simp] theorem State.setV_dt (r : Reg) (b : Byte) : (s.setV r b).dt = s.dt := rfl
@[simp] theorem State.setV_st (r : Reg) (b : Byte) : (s.setV r b).st = s.st := rfl
@[simp] theorem State.setV_keys (r : Reg) (b : Byte) : (s.setV r b).keys = s.keys := rfl
@[simp] theorem State.setV_fb (r : Reg) (b : Byte) : (s.setV r b).fb = s.fb := rfl
@[simp] theorem State.setV_opcode (r : Reg) (b : Byte) : (s.setV r b).opcode = s.opcode := rfl
@[simp] theorem State.setV_fault (r : Reg) (b : Byte) : (s.setV r b).fault = s.fault := rfl
@[simp] theorem State.setV_draws (r : Reg) (b : Byte) : (s.setV r b).draws = s.draws := rfl
@[simp] theorem State.setV_diag (r : Reg) (b : Byte) : (s.setV r b).diag = s.diag := rfl
@[simp] theorem State.readByte_setV (r : Reg) (b : Byte) (q : Nat) : (s.setV r b).readByte q = s.readByte q := rfl
@[simp] theorem State.pixel_setV (r : Reg) (b : Byte) (c' r' : Nat) : (s.setV r b).pixel c' r' = s.pixel c' r' := rfl
@[simp] theorem State.indexAddr_setV (r : Reg) (b : Byte) (q : Nat) : (s.setV r b).indexAddr q = s.indexAddr q := rfl

/-! ### setPc -/

@[simp] theorem State.setPc_mem (w : Word) : (s.setPc w).mem = s.mem := rfl
@[simp] theorem State.setPc_v (w : Word) : (s.setPc w).v = s.v := rfl
@[simp] theorem State.setPc_index (w : Word) : (s.setPc w).index = s.index := rfl
@[simp] theorem State.setPc_pc (w : Word) : (s.setPc w).pc = w := rfl
@[simp] theorem State.setPc_stack (w : Word) : (s.setPc w).stack = s.stack := rfl
@[simp] theorem State.setPc_sp (w : Word) : (s.setPc w).sp = s.sp := rfl
@[simp] theorem State.setPc_dt (w : Word) : (s.setPc w).dt = s.dt := rfl
@[simp] theorem State.setPc_st (w : Word) : (s.setPc w).st = s.st := rfl
@[simp] theorem State.setPc_keys (w : Word) : (s.setPc w).keys = s.keys := rfl
@[simp] theorem State.setPc_fb (w : Word) : (s.setPc w).fb = s.fb := rfl
@[simp] theorem State.setPc_opcode (w : Word) : (s.setPc w).opcode = s.opcode := rfl
@[simp] theorem State.setPc_fault (w : Word) : (s.setPc w).fault = s.fault := rfl
@[simp] theorem State.setPc_draws (w : Word) : (s.setPc w).draws = s.draws := rfl
@[simp] theorem State.setPc_diag (w : Word) : (s.setPc w).diag = s.diag := rfl
@[simp] theorem State.getV_setPc (w : Word) (q : Reg) : (s.setPc w).getV q = s.getV q := rfl
@[simp] theorem State.readByte_setPc (w : Word) (q : Nat) : (s.setPc w).readByte q = s.readByte q := rfl
@[simp] theorem State.pixel_setPc (w : Word) (c' r' : Nat) : (s.setPc w).pixel c' r' = s.pixel c' r' := rfl
@[simp] theorem State.indexAddr_setPc (w : Word) (q : Nat) : (s.setPc w).indexAddr q = s.indexAddr q := rfl

/-! ### setIndex -/

@[simp] theorem State.setIndex_mem (w : Word) : (s.setIndex w).mem = s.mem := rfl
@[simp] theorem State.setIndex_v (w : Word) : (s.setIndex w).v = s.v := rfl
@[simp] theorem State.setIndex_index (w : Word) : (s.setIndex w).index = w := rfl
@[simp] theorem State.setIndex_pc (w : Word) : (s.setIndex w).pc = s.pc := rfl
@[simp] theorem State.setIndex_stack (w : Word) : (s.setIndex w).stack = s.stack := rfl
@[simp] theorem State.setIndex_sp (w : Word) : (s.setIndex w).sp = s.sp := rfl
@[simp] theorem State.setIndex_dt (w : Word) : (s.setIndex w).dt = s.dt := rfl
@[simp] theorem State.setIndex_st (w : Word) : (s.setIndex w).st = s.st := rfl
@[simp] theorem State.setIndex_keys (w : Word) : (s.setIndex w).keys = s.keys := rfl
@[simp] theorem State.setIndex_fb (w : Word) : (s.setIndex w).fb = s.fb := rfl
@[simp] theorem State.setIndex_opcode (w : Word) : (s.setIndex w).opcode = s.opcode := rfl
@[simp] theorem State.setIndex_fault (w : Word) : (s.setIndex w).fault = s.fault := rfl
@[simp] theorem State.setIndex_draws (w : Word) : (s.setIndex w).draws = s.draws := rfl
@[simp] theorem State.setIndex_diag (w : Word) : (s.setIndex w).diag = s.diag := rfl
@[simp] theorem State.getV_setIndex (w : Word) (q : Reg) : (s.setIndex w).getV q = s.getV q := rfl
@[simp] theorem State.readByte_setIndex (w : Word) (q : Nat) : (s.setIndex w).readByte q = s.readByte q := rfl
@[simp] theorem State.pixel_setIndex (w : Word) (c' r' : Nat) : (s.setIndex w).pixel c' r' = s.pixel c' r' := rfl

/-! ### setStackEntry -/

@[simp] theorem State.setStackEntry_mem (k : Nat) (w : Word) : (s.setStackEntry k w).mem = s.mem := rfl
@[simp] theorem State.setStackEntry_v (k : Nat) (w : Word) : (s.setStackEntry k w).v = s.v := rfl
@[simp] theorem State.setStackEntry_index (k : Nat) (w : Word) : (s.setStackEntry k w).index = s.index := rfl
@[simp] theorem State.setStackEntry_pc (k : Nat) (w : Word) : (s.setStackEntry k w).pc = s.pc := rfl
@[simp] theorem State.setStackEntry_stack (k : Nat) (w : Word) : (s.setStackEntry k w).stack = s.stack.setIfInBounds k w := rfl
@[simp] theorem State.setStackEntry_sp (k : Nat) (w : Word) : (s.setStackEntry k w).sp = s.sp := rfl
@[simp] theorem State.setStackEntry_dt (k : Nat) (w : Word) : (s.setStackEntry k w).dt = s.dt := rfl
@[simp] theorem State.setStackEntry_st (k : Nat) (w : Word) : (s.setStackEntry k w).st = s.st := rfl
@[simp] theorem State.setStackEntry_keys (k : Nat) (w : Word) : (s.setStackEntry k w).keys = s.keys := rfl
@[simp] theorem State.setStackEntry_fb (k : Nat) (w : Word) : (s.setStackEntry k w).fb = s.fb := rfl
@[simp] theorem State.setStackEntry_opcode (k : Nat) (w : Word) : (s.setStackEntry k w).opcode = s.opcode := rfl
@[simp] theorem State.setStackEntry_fault (k : Nat) (w : Word) : (s.setStackEntry k w).fault = s.fault := rfl
@[simp] theorem State.setStackEntry_draws (k : Nat) (w : Word) : (s.setStackEntry k w).draws = s.draws := rfl
@[simp] theorem State.setStackEntry_diag (k : Nat) (w : Word) : (s.setStackEntry k w).diag = s.diag := rfl
@[simp] theorem State.getV_setStackEntry (k : Nat) (w : Word) (q : Reg) : (s.setStackEntry k w).getV q = s.getV q := rfl
@[simp] theorem State.readByte_setStackEntry (k : Nat) (w : Word) (q : Nat) : (s.setStackEntry k w).readByte q = s.readByte q := rfl
@[simp] theorem State.pixel_setStackEntry (k : Nat) (w : Word) (c' r' : Nat) : (s.setStackEntry k w).pixel c' r' = s.pixel c' r' := rfl
@[simp] theorem State.indexAddr_setStackEntry (k : Nat) (w : Word) (q : Nat) : (s.setStackEntry k w).indexAddr q = s.indexAddr q := rfl

/-! ### advance -/

@[simp] theorem State.advance_mem (w : Word) : (s.advance w).mem = s.mem := rfl
@[simp] theorem State.advance_v (w : Word) : (s.advance w).v = s.v := rfl
@[simp] theorem State.advance_index (w : Word) : (s.advance w).index = s.index := rfl
@[simp] theorem State.advance_pc (w : Word) : (s.advance w).pc = s.pc + 2 := rfl
@[simp] theorem State.advance_stack (w : Word) : (s.advance w).stack = s.stack := rfl
@[simp] theorem State.advance_sp (w : Word) : (s.advance w).sp = s.sp := rfl
@[simp] theorem State.advance_dt (w : Word) : (s.advance w).dt = s.dt := rfl
@[simp] theorem State.advance_st (w : Word) : (s.advance w).st = s.st := rfl
@[simp] theorem State.advance_keys (w : Word) : (s.advance w).keys = s.keys := rfl
@[simp] theorem State.advance_fb (w : Word) : (s.advance w).fb = s.fb := rfl
@[simp] theorem State.advance_opcode (w : Word) : (s.advance w).opcode = w := rfl
@[simp] theorem State.advance_fault (w : Word) : (s.advance w).fault = s.fault := rfl
@[simp] theorem State.advance_draws (w : Word) : (s.advance w).draws = s.draws := rfl
@[simp] theorem State.advance_diag (w : Word) : (s.advance w).diag = s.diag := rfl
@[simp] theorem State.getV_advance (w : Word) (q : Reg) : (s.advance w).getV q = s.getV q := rfl
@[simp] theorem State.readByte_advance (w : Word) (q : Nat) : (s.advance w).readByte q = s.readByte q := rfl
@[simp] theorem State.pixel_advance (w : Word) (c' r' : Nat) : (s.advance w).pixel c' r' = s.pixel c' r' := rfl
@[simp] theorem State.indexAddr_advance (w : Word) (q : Nat) : (s.advance w).indexAddr q = s.indexAddr q := rfl

/-! ### Registers and the stack read back -/

/-- A register write is read back from its register, and every other register keeps its value. -/
@[simp] theorem State.getV_setV (r q : Reg) (b : Byte) :
    (s.setV r b).getV q = if r = q then b else s.getV q := by
  simp [State.getV, State.setV, Vector.getElem_set, Fin.ext_iff]

/-- A stack entry write is read back from its entry, and every other entry keeps its value. -/
theorem State.getElem_setStackEntry (k : Nat) (w : Word) (j : Fin 16) :
    (s.setStackEntry k w).stack[j.val] = if k = j.val then w else s.stack[j.val] := by
  simp only [State.setStackEntry_stack, Vector.getElem_setIfInBounds]

/-! ### A skip -/

theorem State.skipIf_eq (c : Bool) : s.skipIf c = s.setPc (if c then s.pc + 2 else s.pc) := by
  cases c <;> rfl

end Sys2Proof.Machine
end

