-- ==== Sys2Proof/Laws/Memory.lean ====
section
/-! SUPPORT. The laws of memory: a read after a write, and that every memory operation keeps the canonical form. -/

namespace Sys2Proof.Machine

/-! ## Reading after erasing, inserting and writing -/

theorem Memory.read_erase_same (m : Memory) (a : Nat) : (m.erase a).read a = Config.resetByte a := by
  induction m with
  | nil => rfl
  | cons c m ih =>
    by_cases h : c.1 = a
    · simpa [Memory.erase, h] using ih
    · simpa [Memory.erase, Memory.read, h] using ih

theorem Memory.read_erase_ne (m : Memory) {a q : Nat} (hq : q ≠ a) : (m.erase a).read q = m.read q := by
  induction m with
  | nil => rfl
  | cons c m ih =>
    by_cases h : c.1 = a
    · have hc : c.1 ≠ q := fun e => hq (e.symm.trans h)
      simpa [Memory.erase, Memory.read, h, hc, Ne.symm hq] using ih
    · have ih' := ih
      simp only [Memory.erase] at ih'
      simp [Memory.erase, Memory.read, h, ih']

theorem Memory.read_insert_same (m : Memory) (a : Nat) (b : Byte) (h : ∀ c ∈ m, c.1 ≠ a) :
    (Memory.insert a b m).read a = b := by
  induction m with
  | nil => simp [Memory.insert, Memory.read]
  | cons c m ih =>
    unfold Memory.insert
    split
    · simp [Memory.read]
    · have hc : c.1 ≠ a := h c (by simp)
      simp [Memory.read, hc, ih fun d hd => h d (by simp [hd])]

theorem Memory.read_insert_ne (m : Memory) {a q : Nat} (b : Byte) (hq : q ≠ a) :
    (Memory.insert a b m).read q = m.read q := by
  induction m with
  | nil => simp [Memory.insert, Memory.read, Ne.symm hq]
  | cons c m ih =>
    unfold Memory.insert
    split
    · simp [Memory.read, Ne.symm hq]
    · simp [Memory.read, ih]

theorem Memory.mem_erase {m : Memory} {a : Nat} {c : Host.Cell} : c ∈ m.erase a ↔ c ∈ m ∧ c.1 ≠ a := by
  simp [Memory.erase]

/-- A write is read back from its address, and every other address reads as before. -/
theorem Memory.read_write (m : Memory) (a q : Nat) (b : Byte) :
    (m.write a b).read q = if q = a then b else m.read q := by
  by_cases hb : b = Config.resetByte a
  · by_cases hq : q = a
    · subst hq; simp [Memory.write, hb, Memory.read_erase_same]
    · simp [Memory.write, hb, hq, Memory.read_erase_ne]
  · by_cases hq : q = a
    · subst hq
      simpa [Memory.write, hb] using Memory.read_insert_same _ _ b fun c hc => (Memory.mem_erase.1 hc).2
    · simp [Memory.write, hb, hq, Memory.read_insert_ne, Memory.read_erase_ne]

/-! ## The canonical form -/

theorem Memory.wf_nil : Memory.wf [] := by simp [Memory.wf]

theorem Memory.wf_erase {m : Memory} (h : m.wf) (a : Nat) : (m.erase a).wf :=
  ⟨h.1.filter _, fun c hc => h.2 c (Memory.mem_erase.1 hc).1⟩

theorem Memory.mem_insert {m : Memory} {a : Nat} {b : Byte} {c : Host.Cell}
    (h : c ∈ Memory.insert a b m) : c = (a, b) ∨ c ∈ m := by
  induction m with
  | nil => simpa [Memory.insert] using h
  | cons d m ih =>
    unfold Memory.insert at h
    split at h
    · simpa using h
    · rcases List.mem_cons.1 h with h | h
      · simp [h]
      · rcases ih h with h | h <;> simp [h]

theorem Memory.wf_insert {m : Memory} (h : m.wf) {a : Nat} {b : Byte} (ha : a < 4096)
    (hb : b ≠ Config.resetByte a) (hm : ∀ c ∈ m, c.1 ≠ a) : (Memory.insert a b m).wf := by
  refine ⟨?_, fun c hc => ?_⟩
  · induction m with
    | nil => simp [Memory.insert]
    | cons d m ih =>
      have hp := List.pairwise_cons.1 h.1
      unfold Memory.insert
      split
      · rename_i hlt
        refine List.pairwise_cons.2 ⟨fun c hc => ?_, h.1⟩
        rcases List.mem_cons.1 hc with rfl | hc
        · exact hlt
        · exact hlt.trans (hp.1 c hc)
      · rename_i hnlt
        have hd : d.1 ≠ a := hm d (by simp)
        refine List.pairwise_cons.2 ⟨fun c hc => ?_, ih ⟨hp.2, fun c hc => h.2 c (by simp [hc])⟩
          fun c hc => hm c (by simp [hc])⟩
        rcases Memory.mem_insert hc with rfl | hc
        · exact lt_of_le_of_ne (not_lt.1 hnlt) hd
        · exact hp.1 c hc
  · rcases Memory.mem_insert hc with rfl | hc
    · exact ⟨ha, hb⟩
    · exact h.2 c hc

/-- A write to an address that exists keeps the canonical form. -/
theorem Memory.wf_write {m : Memory} (h : m.wf) {a : Nat} (b : Byte) (ha : a < 4096) : (m.write a b).wf := by
  unfold Memory.write
  split
  · exact Memory.wf_erase h a
  · rename_i hb
    exact Memory.wf_insert (Memory.wf_erase h a) ha hb fun c hc => (Memory.mem_erase.1 hc).2

/-! ## Blocks of bytes -/

@[simp] theorem State.readByte_writeByte (s : State) (a q : Nat) (b : Byte) :
    (s.writeByte a b).readByte q = if q = a then b else s.readByte q := Memory.read_write s.mem a q b

/-- A block write changes memory and nothing else. -/
theorem State.writeBytes_eq (s : State) (a : Nat) (bs : List Byte) :
    s.writeBytes a bs = { s with mem := (s.writeBytes a bs).mem } := by
  induction bs generalizing s a with
  | nil => rfl
  | cons b bs ih => rw [State.writeBytes, ih]; rfl

@[simp] theorem State.writeBytes_v (s : State) (a : Nat) (bs : List Byte) :
    (s.writeBytes a bs).v = s.v := by rw [State.writeBytes_eq]
@[simp] theorem State.writeBytes_index (s : State) (a : Nat) (bs : List Byte) :
    (s.writeBytes a bs).index = s.index := by rw [State.writeBytes_eq]
@[simp] theorem State.writeBytes_pc (s : State) (a : Nat) (bs : List Byte) :
    (s.writeBytes a bs).pc = s.pc := by rw [State.writeBytes_eq]
@[simp] theorem State.writeBytes_stack (s : State) (a : Nat) (bs : List Byte) :
    (s.writeBytes a bs).stack = s.stack := by rw [State.writeBytes_eq]
@[simp] theorem State.writeBytes_sp (s : State) (a : Nat) (bs : List Byte) :
    (s.writeBytes a bs).sp = s.sp := by rw [State.writeBytes_eq]
@[simp] theorem State.writeBytes_dt (s : State) (a : Nat) (bs : List Byte) :
    (s.writeBytes a bs).dt = s.dt := by rw [State.writeBytes_eq]
@[simp] theorem State.writeBytes_st (s : State) (a : Nat) (bs : List Byte) :
    (s.writeBytes a bs).st = s.st := by rw [State.writeBytes_eq]
@[simp] theorem State.writeBytes_keys (s : State) (a : Nat) (bs : List Byte) :
    (s.writeBytes a bs).keys = s.keys := by rw [State.writeBytes_eq]
@[simp] theorem State.writeBytes_fb (s : State) (a : Nat) (bs : List Byte) :
    (s.writeBytes a bs).fb = s.fb := by rw [State.writeBytes_eq]
@[simp] theorem State.writeBytes_opcode (s : State) (a : Nat) (bs : List Byte) :
    (s.writeBytes a bs).opcode = s.opcode := by rw [State.writeBytes_eq]
@[simp] theorem State.writeBytes_fault (s : State) (a : Nat) (bs : List Byte) :
    (s.writeBytes a bs).fault = s.fault := by rw [State.writeBytes_eq]
@[simp] theorem State.writeBytes_draws (s : State) (a : Nat) (bs : List Byte) :
    (s.writeBytes a bs).draws = s.draws := by rw [State.writeBytes_eq]
@[simp] theorem State.writeBytes_diag (s : State) (a : Nat) (bs : List Byte) :
    (s.writeBytes a bs).diag = s.diag := by rw [State.writeBytes_eq]
@[simp] theorem State.getV_writeBytes (s : State) (a : Nat) (bs : List Byte) (q : Reg) :
    (s.writeBytes a bs).getV q = s.getV q := by rw [State.writeBytes_eq]; rfl

/-- A block write is read back byte by byte, and every address outside the block reads as before. -/
theorem State.readByte_writeBytes (s : State) (a q : Nat) (bs : List Byte) :
    (s.writeBytes a bs).readByte q =
      if a ≤ q ∧ q < a + bs.length then bs.getD (q - a) 0 else s.readByte q := by
  induction bs generalizing s a with
  | nil => rw [State.writeBytes, if_neg (by simp)]
  | cons b bs ih =>
    rw [State.writeBytes, ih, State.readByte_writeByte]
    rcases Nat.lt_trichotomy q a with h | h | h
    · rw [if_neg (by omega), if_neg (by omega), if_neg (by simp; omega)]
    · subst h; simp
    · obtain ⟨k, rfl⟩ : ∃ k, q = a + 1 + k := ⟨q - (a + 1), by omega⟩
      have e : a + 1 + k - a = k + 1 := by omega
      have e' : a + 1 + k - (a + 1) = k := by omega
      rw [e, e', List.getD_cons_succ, List.length_cons]
      by_cases hk : k < bs.length
      · rw [if_pos (by omega), if_pos (by omega)]
      · rw [if_neg (by omega), if_neg (by omega), if_neg (by omega)]

/-- A block write within the address space keeps the canonical form. -/
theorem State.wf_writeBytes {s : State} (h : Memory.wf s.mem) {a : Nat} {bs : List Byte}
    (hb : a + bs.length ≤ 4096) : Memory.wf (s.writeBytes a bs).mem := by
  induction bs generalizing s a with
  | nil => exact h
  | cons b bs ih =>
    simp only [List.length_cons] at hb
    exact ih (Memory.wf_write h b (by omega)) (by omega)

end Sys2Proof.Machine
end

