-- ==== Sys2Proof/Laws/Ops.lean ====
section
/-! SUPPORT. One lemma per shared operation that says everything it can do: the range check, a checked access,
the fetch, the start of a Cycle() and the step, the register ranges, the key operands. -/

namespace Sys2Proof.Machine

/-! ## The range check -/

theorem checkMem_eq (a n : Nat) :
    checkMem a n = if n = 0 ∨ a + n ≤ 0x1000 then none else some (if a ≤ 0xFFF then 0x1000 else a) := by
  unfold checkMem
  split
  · rename_i h
    rw [List.find?_eq_none]
    intro b hb
    obtain ⟨k, hk, rfl⟩ := List.mem_map.1 hb
    have := List.mem_range.1 hk
    simp only [decide_eq_true_eq]; omega
  · rename_i h
    obtain ⟨j, hj⟩ : ∃ j, (if a ≤ 0xFFF then 0x1000 else a) = a + j ∧ j < n ∧ (0 < j → a + j = 0x1000) := by
      split
      · exact ⟨0x1000 - a, by omega, by omega, by omega⟩
      · exact ⟨0, by omega, by omega, by omega⟩
    have hlt : 0xFFF < a + j := by rw [← hj.1]; split <;> omega
    rw [hj.1, List.find?_eq_some_iff_getElem]
    refine ⟨by simpa using hlt, j, by simpa using hj.2.1, by simp, fun i hi => ?_⟩
    have := hj.2.2 (by omega)
    simp; omega

/-- A checked access performs all its accesses or raises MemoryOutOfRange, by the range of its addresses. -/
theorem checkedAccess_eq (s t : State) (n : Nat) :
    checkedAccess s n t =
      match rangeFault s n with
      | none => .next t
      | some c => .next (s.raise c) := by
  unfold checkedAccess rangeFault firstBadAddr
  rw [checkMem_eq]
  by_cases h : n = 0 ∨ s.index.toNat + n ≤ 0x1000
  · rw [if_pos h, if_pos h]
  · rw [if_neg h, if_neg h]
    by_cases g : s.index.toNat ≤ 0xFFF <;> simp [g]

theorem rangeFault_of_inRange {s : State} {n : Nat} (h : InRange s n) : rangeFault s n = none := if_pos h

theorem rangeFault_of_not_inRange {s : State} {n : Nat} (h : ¬ InRange s n) :
    rangeFault s n = some (.memoryOutOfRange (firstBadAddr s)) := if_neg h

theorem checkedAccess_ok {s : State} {n : Nat} (h : InRange s n) (t : State) :
    checkedAccess s n t = .next t := by
  rw [checkedAccess_eq, rangeFault_of_inRange h]

theorem checkedAccess_raises {s : State} {n : Nat} (h : ¬ InRange s n) (t : State) :
    checkedAccess s n t = .next (s.raise (.memoryOutOfRange (firstBadAddr s))) := by
  rw [checkedAccess_eq, rangeFault_of_not_inRange h]

/-! ## The fetch and the step -/

/-- The high byte of a fetched word is the byte at pc. -/
theorem word_high (hi lo : Byte) : BitVec.extractLsb' 8 8 (hi ++ lo : Word) = hi := by
  rw [BitVec.extractLsb'_append_eq_of_le (Nat.le_refl 8)]
  simp

/-- The low byte of a fetched word is the byte at pc + 1. -/
theorem word_low (hi lo : Byte) : BitVec.extractLsb' 0 8 (hi ++ lo : Word) = lo := by
  rw [BitVec.extractLsb'_append_eq_of_add_le (by omega)]
  simp

theorem State.fetchWord_eq_none {s : State} : s.fetchWord = none ↔ 0xFFF ≤ s.pc.toNat := by
  unfold State.fetchWord
  split <;> simp <;> omega

theorem State.fetchWord_eq_some {s : State} (h : s.pc.toNat + 1 ≤ 0xFFF) :
    s.fetchWord = some (s.readByte s.pc.toNat ++ s.readByte (s.pc.toNat + 1)) := if_neg (by omega)

/-- What a Cycle() can do: nothing on a faulted core; raise at the fetch; or run the fetched word's handler on
the state after the fetch and the advance. -/
theorem step_eq (s : State) :
    step s =
      if s.fault.isSome then .next s
      else
        match s.fetchWord with
        | none => .next (s.raise (.fetchOutOfRange s.pc))
        | some w => exec (decodeWord w) (s.advance w) := by
  unfold step State.startCycle
  cases s.fault.isSome
  · cases s.fetchWord <;> rfl
  · rfl

/-! ## Register ranges -/

@[simp] theorem mem_regsUpTo {x k : Reg} : k ∈ regsUpTo x ↔ k ≤ x := by simp [regsUpTo]

theorem regsUpTo_length (x : Reg) : (regsUpTo x).length = x.val + 1 := by revert x; decide

theorem regsUpTo_getElem (x : Reg) (j : Fin (x.val + 1)) :
    (regsUpTo x)[j.val]? = some ⟨j.val, by omega⟩ := by revert x; decide

@[simp] theorem State.regBytes_length (s : State) (x : Reg) : (s.regBytes x).length = x.val + 1 := by
  simp [State.regBytes, regsUpTo_length]

/-- The k-th byte stored by Fx55 is Vk. -/
theorem State.regBytes_getD (s : State) (x : Reg) (k : Reg) (h : k ≤ x) :
    (s.regBytes x).getD k.val 0 = s.getV k := by
  have := regsUpTo_getElem x ⟨k.val, Nat.lt_succ_of_le h⟩
  simp only [State.regBytes, List.getD_eq_getElem?_getD, List.getElem?_map, this]
  rfl

/-- A fold of register writes changes the registers and nothing else. -/
theorem foldl_setV_eq (f : Reg → Byte) (ks : List Reg) (t : State) :
    ks.foldl (fun u k => u.setV k (f k)) t = { t with v := (ks.foldl (fun u k => u.setV k (f k)) t).v } := by
  induction ks generalizing t with
  | nil => rfl
  | cons k ks ih => rw [List.foldl_cons, ih]; rfl

theorem getV_foldl_setV (f : Reg → Byte) (ks : List Reg) (t : State) (r : Reg) :
    (ks.foldl (fun u k => u.setV k (f k)) t).getV r = if r ∈ ks then f r else t.getV r := by
  induction ks generalizing t with
  | nil => simp
  | cons k ks ih =>
    rw [List.foldl_cons, ih, State.getV_setV]
    by_cases h : r ∈ ks
    · simp [h]
    · by_cases e : k = r
      · simp [e]
      · simp [h, e, Ne.symm e]

/-- The registers Fx65 loads, and the ones it keeps. -/
theorem State.getV_loadRegs (s : State) (x r : Reg) :
    (s.loadRegs x).getV r = if r ≤ x then s.readByte (s.indexAddr r.val) else s.getV r := by
  rw [State.loadRegs, getV_foldl_setV]; simp

theorem State.loadRegs_eq (s : State) (x : Reg) : s.loadRegs x = { s with v := (s.loadRegs x).v } :=
  foldl_setV_eq _ _ _

@[simp] theorem State.loadRegs_mem (s : State) (x : Reg) : (s.loadRegs x).mem = s.mem := by
  rw [State.loadRegs_eq]
@[simp] theorem State.loadRegs_index (s : State) (x : Reg) : (s.loadRegs x).index = s.index := by
  rw [State.loadRegs_eq]
@[simp] theorem State.loadRegs_pc (s : State) (x : Reg) : (s.loadRegs x).pc = s.pc := by
  rw [State.loadRegs_eq]
@[simp] theorem State.loadRegs_stack (s : State) (x : Reg) : (s.loadRegs x).stack = s.stack := by
  rw [State.loadRegs_eq]
@[simp] theorem State.loadRegs_sp (s : State) (x : Reg) : (s.loadRegs x).sp = s.sp := by
  rw [State.loadRegs_eq]
@[simp] theorem State.loadRegs_dt (s : State) (x : Reg) : (s.loadRegs x).dt = s.dt := by
  rw [State.loadRegs_eq]
@[simp] theorem State.loadRegs_st (s : State) (x : Reg) : (s.loadRegs x).st = s.st := by
  rw [State.loadRegs_eq]
@[simp] theorem State.loadRegs_keys (s : State) (x : Reg) : (s.loadRegs x).keys = s.keys := by
  rw [State.loadRegs_eq]
@[simp] theorem State.loadRegs_fb (s : State) (x : Reg) : (s.loadRegs x).fb = s.fb := by
  rw [State.loadRegs_eq]
@[simp] theorem State.loadRegs_opcode (s : State) (x : Reg) : (s.loadRegs x).opcode = s.opcode := by
  rw [State.loadRegs_eq]
@[simp] theorem State.loadRegs_fault (s : State) (x : Reg) : (s.loadRegs x).fault = s.fault := by
  rw [State.loadRegs_eq]
@[simp] theorem State.loadRegs_draws (s : State) (x : Reg) : (s.loadRegs x).draws = s.draws := by
  rw [State.loadRegs_eq]
@[simp] theorem State.loadRegs_diag (s : State) (x : Reg) : (s.loadRegs x).diag = s.diag := by
  rw [State.loadRegs_eq]

/-! ## Keys -/

theorem State.key_eq_none {s : State} {b : Byte} : s.key b = none ↔ 0xF < b.toNat := by
  simp [State.key]; omega

theorem State.key_eq_some {s : State} {b : Byte} (h : b.toNat ≤ 0xF) :
    s.key b = some (s.keys[b.toNat]'(by omega)) := by
  simp [State.key, Vector.getElem?_eq_getElem (show b.toNat < 16 by omega)]

theorem State.firstPressed_eq_none {s : State} : s.firstPressed = none ↔ ∀ k : Reg, s.keys[k.val] = false := by
  simp [State.firstPressed, List.find?_eq_none]

theorem State.firstPressed_eq_some {s : State} {k : Reg} :
    s.firstPressed = some k ↔ s.keys[k.val] = true ∧ ∀ j : Reg, j < k → s.keys[j.val] = false := by
  rw [State.firstPressed, List.find?_eq_some_iff_getElem]
  constructor
  · rintro ⟨h, i, hi, rfl, hlt⟩
    refine ⟨h, fun j hj => ?_⟩
    have := hlt j.val (by simpa [Fin.lt_def] using hj)
    simpa using this
  · rintro ⟨h, hlt⟩
    refine ⟨h, k.val, by simp, by simp, fun j hj => ?_⟩
    have := hlt ⟨j, by omega⟩ hj
    simpa using this

/-! ## The stack -/

theorem State.stackEntry_eq {s : State} {k : Nat} (h : k < 16) : s.stackEntry k = some (s.stack[k]) := by
  simp [State.stackEntry, h]

theorem State.stackEntry_eq_none {s : State} {k : Nat} : s.stackEntry k = none ↔ 16 ≤ k := by
  simp [State.stackEntry]

end Sys2Proof.Machine
end

