-- ==== Sys2Proof/Laws/Sprite.lean ====
section
/-! SUPPORT. What drawing does to every pixel and to VF (41_display.md R131): one lemma for a toggle, for a
sprite bit, for a sprite row and for a whole sprite. -/

namespace Sys2Proof.Machine

/-- A toggle flips its own pixel and no other. -/
theorem Frame.pixel_toggle (fb : Frame) {c r : Nat} (hc : c < 64) (hr : r < 32) (c' r' : Nat) :
    Frame.pixel (Frame.toggle fb c r) c' r' = (Frame.pixel fb c' r' ^^ decide (c' = c ∧ r' = r)) := by
  unfold Frame.pixel Frame.toggle
  rw [dif_pos hr]
  by_cases h : r' < 32
  · rw [dif_pos h, dif_pos h, Vector.getElem_set]
    by_cases e : r = r'
    · subst e
      by_cases e' : c' = c
      · subst e'; simp [hc]
      · simp [e', Ne.symm e']
    · simp [e, Ne.symm e]
  · rw [dif_neg h, dif_neg h]
    have : r' ≠ r := by omega
    simp [this]

/-- No pixel off the screen's rows is on. -/
theorem Frame.pixel_of_row {fb : Frame} {c r : Nat} (h : ¬ r < 32) : Frame.pixel fb c r = false := dif_neg h

/-- A sprite bit of 1: the pixel flips when it is visible. -/
theorem pixel_plot (p : Canvas) (c r c' r' : Nat) :
    Frame.pixel (plot p c r).1 c' r' = (Frame.pixel p.1 c' r' ^^ decide (c < 64 ∧ r < 32 ∧ c' = c ∧ r' = r)) := by
  unfold plot
  by_cases h : c < 64 ∧ r < 32
  · rw [if_pos h, Frame.pixel_toggle _ h.1 h.2]; simp [h.1, h.2]
  · rw [if_neg h]
    have : ¬ (c < 64 ∧ r < 32 ∧ c' = c ∧ r' = r) := by tauto
    simp [this]

/-- A sprite bit of 1: VF is set by a visible pixel that is on. -/
theorem vf_plot (p : Canvas) (c r : Nat) :
    (plot p c r).2 = if c < 64 ∧ r < 32 ∧ Frame.pixel p.1 c r = true then 1 else p.2 := by
  unfold plot
  by_cases h : c < 64 ∧ r < 32
  · rw [if_pos h]; simp [h.1, h.2]
  · rw [if_neg h, if_neg (by tauto)]

/-- Whether the first k bits of a sprite byte at column cx, row r have a 1 at pixel (c', r'). -/
def rowBit (b : Byte) (cx r k c' r' : Nat) : Bool :=
  decide (r' = r ∧ cx ≤ c' ∧ c' < cx + k) && b.getLsbD (7 - (c' - cx))

theorem rowBit_zero (b : Byte) (cx r c' r' : Nat) : rowBit b cx r 0 c' r' = false := by
  rw [rowBit, decide_eq_false (by omega), Bool.false_and]

theorem rowBit_succ (b : Byte) (cx r k c' r' : Nat) :
    rowBit b cx r (k + 1) c' r' =
      (rowBit b cx r k c' r' ^^ (decide (c' = cx + k ∧ r' = r) && b.getLsbD (7 - k))) := by
  unfold rowBit
  by_cases h : c' = cx + k
  · subst h
    have e : cx + k - cx = k := by omega
    simp [e]
  · have e1 : (r' = r ∧ cx ≤ c' ∧ c' < cx + (k + 1)) ↔ (r' = r ∧ cx ≤ c' ∧ c' < cx + k) := by omega
    simp [h, e1]

/-- The first k bits of a sprite byte. -/
def plotBits (p : Canvas) (b : Byte) (cx r k : Nat) : Canvas :=
  (List.range k).foldl (fun q col => if b.getLsbD (7 - col) then plot q (cx + col) r else q) p

theorem plotBits_succ (p : Canvas) (b : Byte) (cx r k : Nat) :
    plotBits p b cx r (k + 1) =
      if b.getLsbD (7 - k) then plot (plotBits p b cx r k) (cx + k) r else plotBits p b cx r k := by
  simp [plotBits, List.range_succ]

theorem plotRow_eq (p : Canvas) (b : Byte) (cx r : Nat) : plotRow p b cx r = plotBits p b cx r 8 := rfl

theorem pixel_plotBits (p : Canvas) (b : Byte) (cx r k : Nat) {c' r' : Nat} (hc : c' < 64) (hr : r' < 32) :
    Frame.pixel (plotBits p b cx r k).1 c' r' = (Frame.pixel p.1 c' r' ^^ rowBit b cx r k c' r') := by
  induction k with
  | zero => rw [rowBit_zero, Bool.xor_false]; rfl
  | succ k ih =>
    rw [plotBits_succ, rowBit_succ]
    by_cases hb : b.getLsbD (7 - k)
    · have e : (cx + k < 64 ∧ r < 32 ∧ c' = cx + k ∧ r' = r) ↔ (c' = cx + k ∧ r' = r) := by omega
      rw [if_pos hb, pixel_plot, ih]
      simp [hb, e]
    · rw [if_neg hb, ih]; simp [hb]

theorem vf_plotBits (p : Canvas) (b : Byte) (cx r k : Nat) :
    ((∃ c' r', c' < 64 ∧ r' < 32 ∧ rowBit b cx r k c' r' = true ∧ Frame.pixel p.1 c' r' = true) →
        (plotBits p b cx r k).2 = 1) ∧
    ((¬ ∃ c' r', c' < 64 ∧ r' < 32 ∧ rowBit b cx r k c' r' = true ∧ Frame.pixel p.1 c' r' = true) →
        (plotBits p b cx r k).2 = p.2) := by
  induction k with
  | zero => exact ⟨fun ⟨c', r', _, _, h, _⟩ => by simp [rowBit_zero] at h, fun _ => rfl⟩
  | succ k ih =>
    have hk : ∀ {c' r'}, rowBit b cx r (k + 1) c' r' = true ↔
        rowBit b cx r k c' r' = true ∨ (c' = cx + k ∧ r' = r ∧ b.getLsbD (7 - k) = true) := by
      intro c' r'
      by_cases h : c' = cx + k
      · subst h
        have hn : rowBit b cx r k (cx + k) r' = false := by simp [rowBit]
        rw [rowBit_succ, hn]; simp
      · rw [rowBit_succ]; simp [h]
    have hpix : ∀ {c' r'}, c' < 64 → r' < 32 → c' = cx + k →
        Frame.pixel (plotBits p b cx r k).1 c' r' = Frame.pixel p.1 c' r' := by
      intro c' r' h1 h2 h3
      have hn : rowBit b cx r k c' r' = false := by subst h3; simp [rowBit]
      rw [pixel_plotBits p b cx r k h1 h2, hn, Bool.xor_false]
    rw [plotBits_succ]
    constructor
    · rintro ⟨c', r', h1, h2, h3, h4⟩
      rcases hk.1 h3 with h | ⟨rfl, rfl, h⟩
      · have := ih.1 ⟨c', r', h1, h2, h, h4⟩
        split
        · rw [vf_plot, this, ite_self]
        · exact this
      · rw [if_pos h, vf_plot, if_pos ⟨h1, h2, by rw [hpix h1 h2 rfl]; exact h4⟩]
    · intro hn
      have := ih.2 fun ⟨c', r', h1, h2, h3, h4⟩ => hn ⟨c', r', h1, h2, hk.2 (.inl h3), h4⟩
      split
      · rename_i hb
        rw [vf_plot, if_neg, this]
        rintro ⟨h1, h2, h3⟩
        exact hn ⟨cx + k, r, h1, h2, hk.2 (.inr ⟨rfl, rfl, hb⟩), by rw [← hpix h1 h2 rfl]; exact h3⟩
      · exact this

/-- A sprite row: every visible pixel under a bit of 1 flips. -/
theorem pixel_plotRow (p : Canvas) (b : Byte) (cx r : Nat) {c' r' : Nat} (hc : c' < 64) (hr : r' < 32) :
    Frame.pixel (plotRow p b cx r).1 c' r' = (Frame.pixel p.1 c' r' ^^ rowBit b cx r 8 c' r') :=
  pixel_plotBits p b cx r 8 hc hr

/-- Whether the first n rows of the sprite at I, drawn from (cx, cy), have a 1 at pixel (c', r'). -/
def State.blockBit (s : State) (cx cy n c' r' : Nat) : Bool :=
  decide (cx ≤ c' ∧ c' < cx + 8 ∧ cy ≤ r' ∧ r' < cy + n) &&
    (s.readByte (s.indexAddr (r' - cy))).getLsbD (7 - (c' - cx))

theorem State.blockBit_zero (s : State) (cx cy c' r' : Nat) : s.blockBit cx cy 0 c' r' = false := by
  rw [State.blockBit, decide_eq_false (by omega), Bool.false_and]

theorem State.blockBit_succ (s : State) (cx cy n c' r' : Nat) :
    s.blockBit cx cy (n + 1) c' r' =
      (s.blockBit cx cy n c' r' ^^ rowBit (s.readByte (s.indexAddr n)) cx (cy + n) 8 c' r') := by
  unfold State.blockBit rowBit
  by_cases h : r' = cy + n
  · subst h
    have e : cy + n - cy = n := by omega
    simp [e]
  · have e1 : (cx ≤ c' ∧ c' < cx + 8 ∧ cy ≤ r' ∧ r' < cy + (n + 1)) ↔
        (cx ≤ c' ∧ c' < cx + 8 ∧ cy ≤ r' ∧ r' < cy + n) := by omega
    simp [h, e1]

theorem State.plotSprite_succ (s : State) (p : Canvas) (cx cy n : Nat) :
    s.plotSprite p cx cy (n + 1) =
      plotRow (s.plotSprite p cx cy n) (s.readByte (s.indexAddr n)) cx (cy + n) := by
  simp [State.plotSprite, List.range_succ]

/-- A sprite: every visible pixel under a bit of 1 flips. -/
theorem State.pixel_plotSprite (s : State) (p : Canvas) (cx cy n : Nat) {c' r' : Nat}
    (hc : c' < 64) (hr : r' < 32) :
    Frame.pixel (s.plotSprite p cx cy n).1 c' r' = (Frame.pixel p.1 c' r' ^^ s.blockBit cx cy n c' r') := by
  induction n with
  | zero => rw [State.blockBit_zero, Bool.xor_false]; rfl
  | succ n ih => rw [State.plotSprite_succ, pixel_plotRow _ _ _ _ hc hr, ih, State.blockBit_succ, Bool.xor_assoc]

/-- A sprite: VF becomes 1 exactly when a bit of 1 falls on a visible pixel that was on before. -/
theorem State.vf_plotSprite (s : State) (p : Canvas) (cx cy n : Nat) :
    ((∃ c' r', c' < 64 ∧ r' < 32 ∧ s.blockBit cx cy n c' r' = true ∧ Frame.pixel p.1 c' r' = true) →
        (s.plotSprite p cx cy n).2 = 1) ∧
    ((¬ ∃ c' r', c' < 64 ∧ r' < 32 ∧ s.blockBit cx cy n c' r' = true ∧ Frame.pixel p.1 c' r' = true) →
        (s.plotSprite p cx cy n).2 = p.2) := by
  induction n with
  | zero => exact ⟨fun ⟨c', r', _, _, h, _⟩ => by simp [State.blockBit_zero] at h, fun _ => rfl⟩
  | succ n ih =>
    generalize hb : s.readByte (s.indexAddr n) = b
    have hk : ∀ {c' r'}, s.blockBit cx cy (n + 1) c' r' = true ↔
        s.blockBit cx cy n c' r' = true ∨ rowBit b cx (cy + n) 8 c' r' = true := by
      intro c' r'
      rw [State.blockBit_succ, hb]
      by_cases h : r' = cy + n
      · have hn : s.blockBit cx cy n c' r' = false := by subst h; simp [State.blockBit]
        simp [hn]
      · have hn : rowBit b cx (cy + n) 8 c' r' = false := by simp [rowBit, h]
        simp [hn]
    have hpix : ∀ {c' r'}, c' < 64 → r' < 32 → rowBit b cx (cy + n) 8 c' r' = true →
        Frame.pixel (s.plotSprite p cx cy n).1 c' r' = Frame.pixel p.1 c' r' := by
      intro c' r' h1 h2 h3
      have hr : r' = cy + n := by simp [rowBit] at h3; exact h3.1.1
      have hn : s.blockBit cx cy n c' r' = false := by subst hr; simp [State.blockBit]
      rw [State.pixel_plotSprite s p cx cy n h1 h2, hn, Bool.xor_false]
    have hrow := vf_plotBits (s.plotSprite p cx cy n) b cx (cy + n) 8
    rw [State.plotSprite_succ, hb, plotRow_eq]
    by_cases hnew : ∃ c' r', c' < 64 ∧ r' < 32 ∧ rowBit b cx (cy + n) 8 c' r' = true ∧
        Frame.pixel (s.plotSprite p cx cy n).1 c' r' = true
    · refine ⟨fun _ => hrow.1 hnew, fun hn => absurd ?_ hn⟩
      obtain ⟨c', r', h1, h2, h3, h4⟩ := hnew
      exact ⟨c', r', h1, h2, hk.2 (.inr h3), by rw [← hpix h1 h2 h3]; exact h4⟩
    · rw [hrow.2 hnew]
      constructor
      · rintro ⟨c', r', h1, h2, h3, h4⟩
        rcases hk.1 h3 with h | h
        · exact ih.1 ⟨c', r', h1, h2, h, h4⟩
        · exact absurd ⟨c', r', h1, h2, h, by rw [hpix h1 h2 h]; exact h4⟩ hnew
      · intro hn
        exact ih.2 fun ⟨c', r', h1, h2, h3, h4⟩ => hn ⟨c', r', h1, h2, hk.2 (.inl h3), h4⟩

end Sys2Proof.Machine
end

