-- ==== Sys2Proof/Laws/Exec.lean ====
section
/-! SUPPORT. What a handler can do, said once: it raises the fault `faultOf` gives, or stops where a return finds
no stack entry, or leaves the state `effect` gives. Whole-machine claims follow by cases on the instruction. -/

namespace Sys2Proof.Machine

/-- The state a handler leaves when it raises nothing. -/
def effect (i : Instr) (s : State) : State :=
  match i with
  | .op00E0 => { s with fb := Frame.clear }
  | .op00EE => { s with sp := s.sp - 1 }.setPc ((s.stackEntry (s.sp - 1).toNat).getD 0)
  | .op1nnn nnn => s.setPc (zextAddr nnn)
  | .op2nnn nnn => { s.setStackEntry s.sp.toNat s.pc with sp := s.sp + 1 }.setPc (zextAddr nnn)
  | .op3xnn x nn => s.setPc (if s.getV x = nn then s.pc + 2 else s.pc)
  | .op4xnn x nn => s.setPc (if s.getV x ≠ nn then s.pc + 2 else s.pc)
  | .op5xy0 x y => s.setPc (if s.getV x = s.getV y then s.pc + 2 else s.pc)
  | .op6xnn x nn => s.setV x nn
  | .op7xnn x nn => s.setV x (add8 (s.getV x) nn)
  | .op8xy0 x y => s.setV x (s.getV y)
  | .op8xy1 x y => s.setV x (s.getV x ||| s.getV y)
  | .op8xy2 x y => s.setV x (s.getV x &&& s.getV y)
  | .op8xy3 x y => s.setV x (s.getV x ^^^ s.getV y)
  | .op8xy4 x y => (s.setV vf (carryFlag (s.getV x) (s.getV y))).setV x (add8 (s.getV x) (s.getV y))
  | .op8xy5 x y =>
    let t := s.setV vf (noBorrowFlag (s.getV x) (s.getV y))
    t.setV x (sub8 (t.getV x) (t.getV y))
  | .op8xy6 x y =>
    let t := s.setV vf (shiftedOutRight (s.getV y))
    t.setV x (shr1 (t.getV y))
  | .op8xy7 x y =>
    let t := s.setV vf (noBorrowFlag (s.getV y) (s.getV x))
    t.setV x (sub8 (t.getV y) (t.getV x))
  | .op8xyE x y =>
    let t := s.setV vf (shiftedOutLeft (s.getV y))
    t.setV x (shl1 (t.getV y))
  | .op9xy0 x y => s.setPc (if s.getV x ≠ s.getV y then s.pc + 2 else s.pc)
  | .opAnnn nnn => s.setIndex (zextAddr nnn)
  | .opBnnn nnn => s.setPc (zextAddr nnn + zextByte (s.getV 0))
  | .opCxnn x nn => { s with draws := s.draws + 1 }.setV x (Config.rand s.draws &&& nn)
  | .opDxyn x y n =>
    let p := s.plotSprite (s.fb, 0) (s.startCol x) (s.startRow y) n.toNat
    ({ s with fb := p.1 } : State).setV vf p.2
  | .opEx9E x => s.setPc (if (s.key (s.getV x)).getD false = true then s.pc + 2 else s.pc)
  | .opExA1 x => s.setPc (if (s.key (s.getV x)).getD false = true then s.pc else s.pc + 2)
  | .opFx07 x => s.setV x s.dt
  | .opFx0A x =>
    match s.firstPressed with
    | some k => s.setV x (BitVec.ofNat 8 k.val)
    | none => s.setPc (s.pc - 2)
  | .opFx15 x => { s with dt := s.getV x }
  | .opFx18 x => { s with st := s.getV x }
  | .opFx1E x => s.setIndex (s.index + zextByte (s.getV x))
  | .opFx29 x => s.setIndex (BitVec.ofNat 16 (0x050 + 5 * (s.getV x).toNat))
  | .opFx33 x => s.writeBytes (s.indexAddr 0) (bcdDigits (s.getV x))
  | .opFx55 x => (s.writeBytes (s.indexAddr 0) (s.regBytes x)).advanceIndex x
  | .opFx65 x => (s.loadRegs x).advanceIndex x
  | .opNOP _ => { s with diag := s.diag ++ [s.opcode] }

/-- The one stop of the model: a return in a state with sp above 16 (log 4). -/
def stops (i : Instr) (s : State) : Prop := i = .op00EE ∧ 16 < s.sp.toNat

theorem exec_raises {i : Instr} {s : State} {c : Cause} (h : faultOf i s = some c) :
    exec i s = .next (s.raise c) := by
  cases i <;> simp only [faultOf, keyFault, reduceCtorEq] at h
  case op00EE =>
    split at h
    · rename_i e; injection h with h; subst h; exact if_pos e
    · contradiction
  case op2nnn =>
    split at h
    · rename_i e; injection h with h; subst h; exact if_pos e
    · contradiction
  case opDxyn => exact (checkedAccess_eq ..).trans (by rw [h])
  case opFx33 => exact (checkedAccess_eq ..).trans (by rw [h])
  case opFx55 => exact (checkedAccess_eq ..).trans (by rw [h])
  case opFx65 => exact (checkedAccess_eq ..).trans (by rw [h])
  case opEx9E x =>
    split at h
    · rename_i e; injection h with h; subst h
      show skipOnKey x true s = _
      rw [skipOnKey, State.key_eq_none.2 e]
    · contradiction
  case opExA1 x =>
    split at h
    · rename_i e; injection h with h; subst h
      show skipOnKey x false s = _
      rw [skipOnKey, State.key_eq_none.2 e]
    · contradiction

theorem exec_stops {i : Instr} {s : State} (h : stops i s) : exec i s = .fault .stackEntryMissing := by
  obtain ⟨rfl, h⟩ := h
  have h0 : s.sp ≠ 0 := by intro e; rw [e] at h; exact absurd h (by decide)
  have h1 : s.stackEntry (s.sp - 1).toNat = none :=
    State.stackEntry_eq_none.2 (by rw [BitVec.toNat_sub_of_le (by rw [BitVec.le_def]; simp; omega)]; simp; omega)
  show exec00EE s = _
  rw [exec00EE, if_neg h0, h1]

theorem exec_effect {i : Instr} {s : State} (h : faultOf i s = none) (hs : ¬ stops i s) :
    exec i s = .next (effect i s) := by
  cases i
  case op00EE =>
    have h0 : s.sp ≠ 0 := by intro e; simp [faultOf, e] at h
    have h16 : s.sp.toNat ≤ 16 := by by_contra g; exact hs ⟨rfl, by omega⟩
    have hp : 0 < s.sp.toNat := by
      rcases Nat.eq_zero_or_pos s.sp.toNat with e | e
      · exact absurd (BitVec.eq_of_toNat_eq e) h0
      · exact e
    have hk : (s.sp - 1).toNat < 16 := by
      rw [BitVec.toNat_sub_of_le (by rw [BitVec.le_def]; simp; omega)]; simp; omega
    show exec00EE s = _
    rw [exec00EE, if_neg h0, State.stackEntry_eq hk, effect, State.stackEntry_eq hk]; rfl
  case op2nnn =>
    have h16 : ¬ 16 ≤ s.sp.toNat := by intro g; simp [faultOf, g] at h
    exact if_neg h16
  case op3xnn => simp [exec, exec3xnn, State.skipIf_eq, effect]
  case op4xnn => simp [exec, exec4xnn, State.skipIf_eq, effect]
  case op5xy0 => simp [exec, exec5xy0, State.skipIf_eq, effect]
  case op9xy0 => simp [exec, exec9xy0, State.skipIf_eq, effect]
  case opDxyn => exact (checkedAccess_eq ..).trans (by rw [show rangeFault s _ = none from h]; rfl)
  case opFx33 => exact (checkedAccess_eq ..).trans (by rw [show rangeFault s _ = none from h]; rfl)
  case opFx55 => exact (checkedAccess_eq ..).trans (by rw [show rangeFault s _ = none from h]; rfl)
  case opFx65 => exact (checkedAccess_eq ..).trans (by rw [show rangeFault s _ = none from h]; rfl)
  case opEx9E x =>
    have hk : (s.getV x).toNat ≤ 0xF := by by_contra g; simp [faultOf, keyFault, show 0xF < (s.getV x).toNat by omega] at h
    simp [exec, execEx9E, skipOnKey, State.skipIf_eq, effect, State.key_eq_some hk]
  case opExA1 x =>
    have hk : (s.getV x).toNat ≤ 0xF := by by_contra g; simp [faultOf, keyFault, show 0xF < (s.getV x).toNat by omega] at h
    simp only [exec, execExA1, skipOnKey, State.skipIf_eq, effect, State.key_eq_some hk]
    cases s.keys[(s.getV x).toNat]'(by omega) <;> rfl
  case opFx0A =>
    simp only [exec, execFx0A, effect]
    cases s.firstPressed <;> rfl
  all_goals rfl

/-- What a handler can do. -/
theorem exec_cases {i : Instr} {s t : State} (h : exec i s = .next t) :
    (∃ c, faultOf i s = some c ∧ t = s.raise c) ∨ (faultOf i s = none ∧ ¬ stops i s ∧ t = effect i s) := by
  cases hf : faultOf i s with
  | some c => rw [exec_raises hf] at h; injection h with h; exact .inl ⟨c, rfl, h.symm⟩
  | none =>
    by_cases hs : stops i s
    · rw [exec_stops hs] at h; contradiction
    · rw [exec_effect hf hs] at h; injection h with h; exact .inr ⟨rfl, hs, h.symm⟩

/-- No handler but a return from beyond the stack stops: in every state with sp at most 16 it answers a next one. -/
theorem exec_answers (i : Instr) {s : State} (h : s.sp.toNat ≤ 16) : ∃ t, exec i s = .next t := by
  cases hf : faultOf i s with
  | some c => exact ⟨_, exec_raises hf⟩
  | none => exact ⟨_, exec_effect hf fun hs => absurd hs.2 (by omega)⟩

end Sys2Proof.Machine
end

