-- ==== Sys2Proof/Laws/Host.lean ====
section
/-! SUPPORT. The laws of construction with a given FONT (00_scope.md R9, 10_state.md R38): what memory holds, that it
is canonical, every other element, and that the default FONT gives `State.reset`. -/

namespace Sys2Proof.Machine

set_option maxRecDepth 4000 in
/-- The default FONT gives the reset state of the interface. -/
@[simp] theorem State.resetWith_defaultFont : State.resetWith Config.defaultFont = State.reset := by decide

/-- After construction FONT stands at 0x050 to 0x09F, and every other byte is zero. -/
theorem State.readByte_resetWith (font : FontTable) (a : Nat) :
    (State.resetWith font).readByte a = if 0x050 ≤ a then font[a - 0x050]?.getD 0 else 0 := by
  rw [State.resetWith, State.readByte_writeBytes]
  by_cases h : 0x050 ≤ a
  · by_cases h2 : a < 0x0A0
    · rw [if_pos ⟨h, by simpa using h2⟩, if_pos h]
      simp [List.getD_eq_getElem?_getD]
    · rw [if_neg (by simp; omega), if_pos h]
      show Config.resetByte a = _
      rw [Config.resetByte, if_pos h, Vector.getElem?_eq_none (by simp; omega),
        Vector.getElem?_eq_none (by omega)]
  · rw [if_neg (by simp; omega), if_neg h]
    exact if_neg h

/-- Memory after construction is in canonical form. -/
theorem State.wf_resetWith (font : FontTable) : Memory.wf (State.resetWith font).mem :=
  State.wf_writeBytes Memory.wf_nil (by simp)

/-- Construction with any FONT differs from `State.reset` in memory only. -/
theorem State.resetWith_eq (font : FontTable) :
    State.resetWith font = { State.reset with mem := (State.resetWith font).mem } := State.writeBytes_eq _ _ _

end Sys2Proof.Machine
end

