-- ==== Sys2Proof/Laws/PerInstr.lean ====
section
/-! SUPPORT. Statements made for every instruction, one lemma per constructor. RowMatch (30_encoding.md R94): the
word of an instruction selects the instruction's own row of the opcode map, and the word of a well-formed no-op
selects no row. -/

namespace Sys2Proof.Laws.RowMatch

/-- The encoded word selects the row of the instruction's mnemonic; a well-formed no-op's word selects none. -/
def Statement (i : Instr) : Prop :=
  WellFormed i = true →
    match i with
    | .opNOP w => ∀ r ∈ opcodeTable, selects w r = false
    | j => ∃ r ∈ opcodeTable, r.mnemonic = j.mnemonic ∧ selects (encode j) r = true

theorem op00E0 : Statement (.op00E0) :=
  fun _ => ⟨⟨"00E0", 0x0000, 0xF00F⟩, by decide, rfl, by decide⟩

theorem op00EE : Statement (.op00EE) :=
  fun _ => ⟨⟨"00EE", 0x000E, 0xF00F⟩, by decide, rfl, by decide⟩

theorem op1nnn (nnn : Addr12) : Statement (.op1nnn nnn) :=
  fun _ => ⟨⟨"1nnn", 0x1000, 0xF000⟩, by decide, rfl, selects_formatA 0x1#4 nnn "1nnn"⟩

theorem op2nnn (nnn : Addr12) : Statement (.op2nnn nnn) :=
  fun _ => ⟨⟨"2nnn", 0x2000, 0xF000⟩, by decide, rfl, selects_formatA 0x2#4 nnn "2nnn"⟩

theorem op3xnn (x : Reg) (nn : Byte) : Statement (.op3xnn x nn) :=
  fun _ => ⟨⟨"3xnn", 0x3000, 0xF000⟩, by decide, rfl, selects_formatA 0x3#4 (regBits x ++ nn) "3xnn"⟩

theorem op4xnn (x : Reg) (nn : Byte) : Statement (.op4xnn x nn) :=
  fun _ => ⟨⟨"4xnn", 0x4000, 0xF000⟩, by decide, rfl, selects_formatA 0x4#4 (regBits x ++ nn) "4xnn"⟩

theorem op5xy0 (x y : Reg) : Statement (.op5xy0 x y) :=
  fun _ => ⟨⟨"5xy0", 0x5000, 0xF000⟩, by decide, rfl, selects_formatA 0x5#4 (regBits x ++ (regBits y ++ 0#4 : Byte)) "5xy0"⟩

theorem op6xnn (x : Reg) (nn : Byte) : Statement (.op6xnn x nn) :=
  fun _ => ⟨⟨"6xnn", 0x6000, 0xF000⟩, by decide, rfl, selects_formatA 0x6#4 (regBits x ++ nn) "6xnn"⟩

theorem op7xnn (x : Reg) (nn : Byte) : Statement (.op7xnn x nn) :=
  fun _ => ⟨⟨"7xnn", 0x7000, 0xF000⟩, by decide, rfl, selects_formatA 0x7#4 (regBits x ++ nn) "7xnn"⟩

theorem op8xy0 (x y : Reg) : Statement (.op8xy0 x y) :=
  fun _ => ⟨⟨"8xy0", 0x8000, 0xF00F⟩, by decide, rfl, selects_formatXY 0x8#4 x y 0x0#4 "8xy0"⟩

theorem op8xy1 (x y : Reg) : Statement (.op8xy1 x y) :=
  fun _ => ⟨⟨"8xy1", 0x8001, 0xF00F⟩, by decide, rfl, selects_formatXY 0x8#4 x y 0x1#4 "8xy1"⟩

theorem op8xy2 (x y : Reg) : Statement (.op8xy2 x y) :=
  fun _ => ⟨⟨"8xy2", 0x8002, 0xF00F⟩, by decide, rfl, selects_formatXY 0x8#4 x y 0x2#4 "8xy2"⟩

theorem op8xy3 (x y : Reg) : Statement (.op8xy3 x y) :=
  fun _ => ⟨⟨"8xy3", 0x8003, 0xF00F⟩, by decide, rfl, selects_formatXY 0x8#4 x y 0x3#4 "8xy3"⟩

theorem op8xy4 (x y : Reg) : Statement (.op8xy4 x y) :=
  fun _ => ⟨⟨"8xy4", 0x8004, 0xF00F⟩, by decide, rfl, selects_formatXY 0x8#4 x y 0x4#4 "8xy4"⟩

theorem op8xy5 (x y : Reg) : Statement (.op8xy5 x y) :=
  fun _ => ⟨⟨"8xy5", 0x8005, 0xF00F⟩, by decide, rfl, selects_formatXY 0x8#4 x y 0x5#4 "8xy5"⟩

theorem op8xy6 (x y : Reg) : Statement (.op8xy6 x y) :=
  fun _ => ⟨⟨"8xy6", 0x8006, 0xF00F⟩, by decide, rfl, selects_formatXY 0x8#4 x y 0x6#4 "8xy6"⟩

theorem op8xy7 (x y : Reg) : Statement (.op8xy7 x y) :=
  fun _ => ⟨⟨"8xy7", 0x8007, 0xF00F⟩, by decide, rfl, selects_formatXY 0x8#4 x y 0x7#4 "8xy7"⟩

theorem op8xyE (x y : Reg) : Statement (.op8xyE x y) :=
  fun _ => ⟨⟨"8xyE", 0x800E, 0xF00F⟩, by decide, rfl, selects_formatXY 0x8#4 x y 0xE#4 "8xyE"⟩

theorem op9xy0 (x y : Reg) : Statement (.op9xy0 x y) :=
  fun _ => ⟨⟨"9xy0", 0x9000, 0xF000⟩, by decide, rfl, selects_formatA 0x9#4 (regBits x ++ (regBits y ++ 0#4 : Byte)) "9xy0"⟩

theorem opAnnn (nnn : Addr12) : Statement (.opAnnn nnn) :=
  fun _ => ⟨⟨"Annn", 0xA000, 0xF000⟩, by decide, rfl, selects_formatA 0xA#4 nnn "Annn"⟩

theorem opBnnn (nnn : Addr12) : Statement (.opBnnn nnn) :=
  fun _ => ⟨⟨"Bnnn", 0xB000, 0xF000⟩, by decide, rfl, selects_formatA 0xB#4 nnn "Bnnn"⟩

theorem opCxnn (x : Reg) (nn : Byte) : Statement (.opCxnn x nn) :=
  fun _ => ⟨⟨"Cxnn", 0xC000, 0xF000⟩, by decide, rfl, selects_formatA 0xC#4 (regBits x ++ nn) "Cxnn"⟩

theorem opDxyn (x y : Reg) (n : Nibble) : Statement (.opDxyn x y n) :=
  fun _ => ⟨⟨"Dxyn", 0xD000, 0xF000⟩, by decide, rfl, selects_formatA 0xD#4 (regBits x ++ (regBits y ++ n : Byte)) "Dxyn"⟩

theorem opEx9E (x : Reg) : Statement (.opEx9E x) :=
  fun _ => ⟨⟨"Ex9E", 0xE00E, 0xF00F⟩, by decide, rfl, selects_formatXY 0xE#4 x 0x9 0xE#4 "Ex9E"⟩

theorem opExA1 (x : Reg) : Statement (.opExA1 x) :=
  fun _ => ⟨⟨"ExA1", 0xE001, 0xF00F⟩, by decide, rfl, selects_formatXY 0xE#4 x 0xA 0x1#4 "ExA1"⟩

theorem opFx07 (x : Reg) : Statement (.opFx07 x) :=
  fun _ => ⟨⟨"Fx07", 0xF007, 0xF0FF⟩, by decide, rfl, selects_formatXB 0xF#4 x 0x07#8 "Fx07"⟩

theorem opFx0A (x : Reg) : Statement (.opFx0A x) :=
  fun _ => ⟨⟨"Fx0A", 0xF00A, 0xF0FF⟩, by decide, rfl, selects_formatXB 0xF#4 x 0x0A#8 "Fx0A"⟩

theorem opFx15 (x : Reg) : Statement (.opFx15 x) :=
  fun _ => ⟨⟨"Fx15", 0xF015, 0xF0FF⟩, by decide, rfl, selects_formatXB 0xF#4 x 0x15#8 "Fx15"⟩

theorem opFx18 (x : Reg) : Statement (.opFx18 x) :=
  fun _ => ⟨⟨"Fx18", 0xF018, 0xF0FF⟩, by decide, rfl, selects_formatXB 0xF#4 x 0x18#8 "Fx18"⟩

theorem opFx1E (x : Reg) : Statement (.opFx1E x) :=
  fun _ => ⟨⟨"Fx1E", 0xF01E, 0xF0FF⟩, by decide, rfl, selects_formatXB 0xF#4 x 0x1E#8 "Fx1E"⟩

theorem opFx29 (x : Reg) : Statement (.opFx29 x) :=
  fun _ => ⟨⟨"Fx29", 0xF029, 0xF0FF⟩, by decide, rfl, selects_formatXB 0xF#4 x 0x29#8 "Fx29"⟩

theorem opFx33 (x : Reg) : Statement (.opFx33 x) :=
  fun _ => ⟨⟨"Fx33", 0xF033, 0xF0FF⟩, by decide, rfl, selects_formatXB 0xF#4 x 0x33#8 "Fx33"⟩

theorem opFx55 (x : Reg) : Statement (.opFx55 x) :=
  fun _ => ⟨⟨"Fx55", 0xF055, 0xF0FF⟩, by decide, rfl, selects_formatXB 0xF#4 x 0x55#8 "Fx55"⟩

theorem opFx65 (x : Reg) : Statement (.opFx65 x) :=
  fun _ => ⟨⟨"Fx65", 0xF065, 0xF0FF⟩, by decide, rfl, selects_formatXB 0xF#4 x 0x65#8 "Fx65"⟩

theorem opNOP (word : Word) : Statement (.opNOP word) := fun h => selects_unrecognized h

end Sys2Proof.Laws.RowMatch
end

