-- ==== Sys2Proof/Tests/Slice0.lean ====
section
/-! SUPPORT. Tests of single steps and single words whose expected results are those of spec/95_test_vectors.md (the
id of each vector stands in its docstring), the smoke test of WellFormed, and for every obligation with hypotheses
a witness of concrete states and operands that meet them together. -/

namespace Sys2Proof.Tests

open Sys2Proof Sys2Proof.Machine

set_option maxRecDepth 4000

/-! ## Helpers -/

/-- The reset state with the word at 0x200 and the listed registers set. -/
def start (word : Word) (regs : List (Reg × Byte) := []) : State :=
  let s := regs.foldl (fun s p => s.setV p.1 p.2) State.reset
  s.writeBytes 0x200 [word.extractLsb' 8 8, word.extractLsb' 0 8]

/-- The state one step later, where there is one. -/
def after (s : State) : Option State :=
  match step s with
  | .next t => some t
  | _ => none

/-- The state the fetch and the advance of the word at 0x200 leave. -/
def fetched (s : State) (word : Word) : State := { s with opcode := word, pc := 0x202 }

/-- The reset framebuffer with the listed pixels on. -/
def lit (ps : List (Nat × Nat)) : Frame := ps.foldl (fun f p => Frame.toggle f p.1 p.2) State.reset.fb

/-- The fourteen pixels of glyph 0 at (0, 0). -/
def glyph0 : List (Nat × Nat) :=
  [(0, 0), (1, 0), (2, 0), (3, 0), (0, 1), (3, 1), (0, 2), (3, 2), (0, 3), (3, 3), (0, 4), (1, 4), (2, 4), (3, 4)]

/-- A FONT other than the default: every byte 0xFF. -/
def oneFont : FontTable := Vector.replicate 80 0xFF

/-! ## WellFormed: the one check refuses an ill-formed term -/

theorem test_wellFormed_refuses_noop_of_recognized_word :
    WellFormed (.opNOP 0x00E0) = false ∧ WellFormed (.opNOP 0x8AB4) = false ∧ WellFormed (.opNOP 0xE19E) = false ∧
    WellFormed (.opNOP 0xF165) = false ∧ WellFormed (.opNOP 0x1234) = false := by decide

theorem test_wellFormed_accepts_noop_of_unrecognized_word :
    WellFormed (.opNOP 0x0123) = true ∧ WellFormed (.opNOP 0x8008) = true ∧ WellFormed (.opNOP 0xE100) = true ∧
    WellFormed (.opNOP 0xF0FF) = true := by decide

/-! ## Decoding: every constructor, by words of 95_test_vectors.md section 2 and of the encodings of 30_encoding.md -/

theorem test_decode_t0 :
    decodeTableWord 16 0x0000 = some .op00E0 ∧
    decodeTableWord 16 0x00E0 = some .op00E0 ∧
    decodeTableWord 16 0x0FF0 = some .op00E0 ∧
    decodeTableWord 16 0x00EE = some .op00EE ∧
    decodeTableWord 16 0x0FFE = some .op00EE := by decide

theorem test_decode_jumps :
    decodeTableWord 16 0x1234 = some (.op1nnn 0x234) ∧
    decodeTableWord 16 0x2ABC = some (.op2nnn 0xABC) ∧
    decodeTableWord 16 0xB123 = some (.opBnnn 0x123) ∧
    decodeTableWord 16 0xA123 = some (.opAnnn 0x123) := by decide

theorem test_decode_skips :
    decodeTableWord 16 0x3F00 = some (.op3xnn 0xF 0x00) ∧
    decodeTableWord 16 0x4000 = some (.op4xnn 0x0 0x00) ∧
    decodeTableWord 16 0x5120 = some (.op5xy0 0x1 0x2) ∧
    decodeTableWord 16 0x512F = some (.op5xy0 0x1 0x2) ∧
    decodeTableWord 16 0x9AB0 = some (.op9xy0 0xA 0xB) ∧
    decodeTableWord 16 0x9AB7 = some (.op9xy0 0xA 0xB) := by decide

theorem test_decode_loads :
    decodeTableWord 16 0x6A12 = some (.op6xnn 0xA 0x12) ∧
    decodeTableWord 16 0x7FFF = some (.op7xnn 0xF 0xFF) ∧
    decodeTableWord 16 0xC1FF = some (.opCxnn 0x1 0xFF) ∧
    decodeTableWord 16 0xD12F = some (.opDxyn 0x1 0x2 0xF) := by decide

theorem test_decode_alu_logic :
    decodeTableWord 16 0x8120 = some (.op8xy0 0x1 0x2) ∧
    decodeTableWord 16 0x8AB1 = some (.op8xy1 0xA 0xB) ∧
    decodeTableWord 16 0x8AB2 = some (.op8xy2 0xA 0xB) ∧
    decodeTableWord 16 0x8AB3 = some (.op8xy3 0xA 0xB) ∧
    decodeTableWord 16 0x8AB4 = some (.op8xy4 0xA 0xB) := by decide

theorem test_decode_alu_arith :
    decodeTableWord 16 0x8AB5 = some (.op8xy5 0xA 0xB) ∧
    decodeTableWord 16 0x8AB6 = some (.op8xy6 0xA 0xB) ∧
    decodeTableWord 16 0x8AB7 = some (.op8xy7 0xA 0xB) ∧
    decodeTableWord 16 0x800E = some (.op8xyE 0x0 0x0) ∧
    decodeTableWord 16 0x8ABE = some (.op8xyE 0xA 0xB) := by decide

theorem test_decode_keys :
    decodeTableWord 16 0xE19E = some (.opEx9E 0x1) ∧
    decodeTableWord 16 0xE10E = some (.opEx9E 0x1) ∧
    decodeTableWord 16 0xE1AE = some (.opEx9E 0x1) ∧
    decodeTableWord 16 0xE1A1 = some (.opExA1 0x1) ∧
    decodeTableWord 16 0xE191 = some (.opExA1 0x1) := by decide

theorem test_decode_misc :
    decodeTableWord 16 0xF307 = some (.opFx07 0x3) ∧
    decodeTableWord 16 0xF00A = some (.opFx0A 0x0) ∧
    decodeTableWord 16 0xF115 = some (.opFx15 0x1) ∧
    decodeTableWord 16 0xF218 = some (.opFx18 0x2) ∧
    decodeTableWord 16 0xF41E = some (.opFx1E 0x4) ∧
    decodeTableWord 16 0xF529 = some (.opFx29 0x5) ∧
    decodeTableWord 16 0xF633 = some (.opFx33 0x6) ∧
    decodeTableWord 16 0xFE55 = some (.opFx55 0xE) ∧
    decodeTableWord 16 0xFF65 = some (.opFx65 0xF) := by decide

theorem test_decode_noop :
    decodeTableWord 16 0x0123 = some (.opNOP 0x0123) ∧
    decodeTableWord 16 0x00FF = some (.opNOP 0x00FF) ∧
    decodeTableWord 16 0x8008 = some (.opNOP 0x8008) ∧
    decodeTableWord 16 0x800F = some (.opNOP 0x800F) ∧
    decodeTableWord 16 0xE19F = some (.opNOP 0xE19F) ∧
    decodeTableWord 16 0xE100 = some (.opNOP 0xE100) ∧
    decodeTableWord 16 0xF166 = some (.opNOP 0xF166) ∧
    decodeTableWord 16 0xF085 = some (.opNOP 0xF085) := by decide

/-- 30_encoding.md R80, R91, R92: two bytes, the first the high one; the rest of the bytes is left; the canonical
words of two aliases. -/
theorem test_decode_bytes_and_canonical_words :
    decode [0x60, 0x05, 0xAA] = .ok (.op6xnn 0 5, [0xAA]) ∧ decode [0x60] = .error .fewerThanTwoBytes ∧
    canonicalWord 0xE1AE = 0xE19E ∧ canonicalWord 0x010E = 0x00EE ∧ encode (.op8xyE 0xA 0xB) = 0x8ABE := by decide

/-! ## Fetch, faults and reset -/

/-- F2. -/
theorem test_fetch_last_word :
    after { State.reset.writeBytes 0xFFE [0x00, 0xE0] with pc := 0xFFE } =
      some { State.reset.writeBytes 0xFFE [0x00, 0xE0] with pc := 0x1000, opcode := 0x00E0 } := by decide

/-- F3, F4. -/
theorem test_fetch_past_memory_raises :
    after { State.reset with pc := 0x1000 } = some { State.reset with pc := 0x1000, fault := some (.fetchOutOfRange 0x1000) } ∧
    after { State.reset with pc := 0xFFF } = some { State.reset with pc := 0xFFF, fault := some (.fetchOutOfRange 0xFFF) } := by decide

/-- F5. -/
theorem test_fetch_odd_pc :
    (after { State.reset.writeBytes 0x201 [0x60, 0x2A] with pc := 0x201 }).map (fun t => (t.getV 0, t.pc)) =
      some (0x2A, 0x203) := by decide

/-- X1. -/
theorem test_faulted_core_stays :
    after { start 0x6001 with fault := some .stackOverflow } = some { start 0x6001 with fault := some .stackOverflow } := by decide

/-- X2. -/
theorem test_reset_clears_fault :
    { start 0x6001 with fault := some .stackOverflow }.construct Config.defaultFont = State.reset := by decide

/-- 10_state.md R33: glyph 0 and glyph F of the default FONT, and the bytes before and after the font. -/
theorem test_font_bytes :
    (List.range 5).map (fun k => State.reset.readByte (0x050 + k)) = [0xF0, 0x90, 0x90, 0x90, 0xF0] ∧
    (List.range 5).map (fun k => State.reset.readByte (0x09B + k)) = [0xF0, 0x80, 0xF0, 0x80, 0x80] ∧
    State.reset.readByte 0x04F = 0 ∧ State.reset.readByte 0x0A0 = 0 := by decide

/-- 00_scope.md R9, 10_state.md R38: a core constructed with another FONT holds it at 0x050 to 0x09F, and only there;
the default gives the reset state. -/
theorem test_resetWith_another_font :
    let s := State.resetWith oneFont
    [0x04F, 0x050, 0x051, 0x09F, 0x0A0].map s.readByte = [0, 0xFF, 0xFF, 0xFF, 0] ∧
    State.resetWith Config.defaultFont = State.reset := by decide

/-- 60_exceptions.md R200: the five cause codes. -/
theorem test_cause_codes :
    [Cause.fetchOutOfRange 0, .memoryOutOfRange 0, .stackOverflow, .stackUnderflow, .keyIndexOutOfRange 0].map
      Cause.code = [1, 2, 3, 4, 5] ∧ State.reset.faultCode = 0 := by decide

/-- The word withFetchWord places runs as the first instruction after reset (6005: V0 = 5). -/
theorem test_withFetchWord_runs_the_word :
    (after (State.reset.withFetchWord 16 0x6005)).map (fun t => (t.getV 0, t.pc, t.opcode)) =
      some (5, 0x202, 0x6005) := by decide

/-- A faulted state and a pc the fetch cannot read are made ready for the word. -/
theorem test_withFetchWord_from_faulted_state :
    (after (State.withFetchWord { State.reset with pc := 0xFFF, fault := some .stackOverflow } 16 0x6005)).map
      (fun t => (t.getV 0, t.fault)) = some (5, none) := by decide

/-! ## Single steps: at most two for each instruction -/

/-- D1. -/
theorem test_00E0_clears :
    let s : State := { start 0x00E0 with fb := lit [(5, 5), (63, 31)] }
    after s = some ({ fetched s 0x00E0 with fb := State.reset.fb }) := by decide

/-- J5, J10 at the top of the stack. -/
theorem test_00EE_returns :
    let s : State := { start 0x010E with sp := 16, stack := State.reset.stack.set 15 0x250 }
    after s = some ({ fetched s 0x010E with pc := 0x250, sp := 15 }) := by decide

/-- J6. -/
theorem test_00EE_underflow :
    let s : State := start 0x00EE
    after s = some ((fetched s 0x00EE).raise .stackUnderflow) := by decide

/-- J1. -/
theorem test_1nnn_jumps :
    let s := start 0x1300
    after s = some ((fetched s 0x1300).setPc 0x300) := by decide

/-- J2. -/
theorem test_1nnn_parked :
    let s := start 0x1200
    after s = some ((fetched s 0x1200).setPc 0x200) := by decide

/-- J3. -/
theorem test_2nnn_calls :
    let s : State := start 0x2300
    after s = some ({ fetched s 0x2300 with pc := 0x300, sp := 1, stack := s.stack.set 0 0x202 }) := by decide

/-- J4. -/
theorem test_2nnn_overflow :
    let s : State := { start 0x2300 with sp := 16 }
    after s = some ((fetched s 0x2300).raise .stackOverflow) := by decide

/-- S1. -/
theorem test_3xnn_taken :
    let s := start 0x3342 [(3, 0x42)]
    after s = some ((fetched s 0x3342).setPc 0x204) := by decide

/-- S2. -/
theorem test_3xnn_not_taken :
    let s := start 0x3342 [(3, 0x41)]
    after s = some (fetched s 0x3342) := by decide

/-- S3. -/
theorem test_4xnn_not_taken :
    let s := start 0x4342 [(3, 0x42)]
    after s = some (fetched s 0x4342) := by decide

/-- S4. -/
theorem test_4xnn_taken :
    let s := start 0x4342 [(3, 0x41)]
    after s = some ((fetched s 0x4342).setPc 0x204) := by decide

/-- S7. -/
theorem test_5xy0_alias_taken :
    let s := start 0x5121 [(1, 0x07), (2, 0x07)]
    after s = some ((fetched s 0x5121).setPc 0x204) := by decide

/-- S6. -/
theorem test_5xy0_not_taken :
    let s := start 0x5120 [(1, 0x07), (2, 0x08)]
    after s = some (fetched s 0x5120) := by decide

/-- A1. -/
theorem test_6xnn_loads :
    let s := start 0x6005 [(15, 0x07)]
    after s = some ((fetched s 0x6005).setV 0 0x05) := by decide

/-- A2. -/
theorem test_7xnn_wraps :
    let s := start 0x7202 [(2, 0xFF), (15, 0x07)]
    after s = some ((fetched s 0x7202).setV 2 0x01) := by decide

/-- A3. -/
theorem test_7xnn_on_vf :
    let s := start 0x7F01 [(15, 0x07)]
    after s = some ((fetched s 0x7F01).setV 15 0x08) := by decide

/-- A4. -/
theorem test_8xy0_copies :
    let s := start 0x8010 [(1, 0x33)]
    after s = some ((fetched s 0x8010).setV 0 0x33) := by decide

/-- A5. -/
theorem test_8xy1_or :
    let s := start 0x8011 [(0, 0x0F), (1, 0xF0), (15, 0x07)]
    after s = some ((fetched s 0x8011).setV 0 0xFF) := by decide

/-- A6. -/
theorem test_8xy2_and :
    let s := start 0x8012 [(0, 0x3C), (1, 0x0F), (15, 0x07)]
    after s = some ((fetched s 0x8012).setV 0 0x0C) := by decide

/-- A7. -/
theorem test_8xy3_xor :
    let s := start 0x8013 [(0, 0x3C), (1, 0x0F), (15, 0x07)]
    after s = some ((fetched s 0x8013).setV 0 0x33) := by decide

/-- A10. -/
theorem test_8xy4_carry :
    let s := start 0x8014 [(0, 0x80), (1, 0x80)]
    after s = some (((fetched s 0x8014).setV 15 1).setV 0 0) := by decide

/-- A13. -/
theorem test_8xy4_into_vf :
    let s := start 0x8F14 [(1, 0xFF), (15, 0x03)]
    after s = some ((fetched s 0x8F14).setV 15 0x02) := by decide

/-- A16. -/
theorem test_8xy5_borrow :
    let s := start 0x8015 [(0, 0x03), (1, 0x05)]
    after s = some (((fetched s 0x8015).setV 15 0).setV 0 0xFE) := by decide

/-- A19. -/
theorem test_8xy5_from_vf :
    let s := start 0x80F5 [(0, 0x05), (15, 0x03)]
    after s = some (((fetched s 0x80F5).setV 15 1).setV 0 0x04) := by decide

/-- A23. -/
theorem test_8xy6_reads_vy :
    let s := start 0x8016 [(0, 0xFF), (1, 0x02), (15, 0x01)]
    after s = some (((fetched s 0x8016).setV 15 0).setV 0 0x01) := by decide

/-- A26. -/
theorem test_8xy6_of_vf :
    let s := start 0x80F6 [(0, 0x55), (15, 0x03)]
    after s = some (((fetched s 0x80F6).setV 15 1).setV 0 0) := by decide

/-- A30. -/
theorem test_8xy7_equal :
    let s := start 0x8017 [(0, 0x05), (1, 0x05), (15, 0x01)]
    after s = some (((fetched s 0x8017).setV 15 0).setV 0 0) := by decide

/-- A31. -/
theorem test_8xy7_into_vf :
    let s := start 0x8F17 [(1, 0x05), (15, 0x03)]
    after s = some ((fetched s 0x8F17).setV 15 0x04) := by decide

/-- A34. -/
theorem test_8xyE_top_bit :
    let s := start 0x801E [(1, 0x81)]
    after s = some (((fetched s 0x801E).setV 15 1).setV 0 0x02) := by decide

/-- A38. -/
theorem test_8xyE_of_vf :
    let s := start 0x80FE [(15, 0x80)]
    after s = some (((fetched s 0x80FE).setV 15 1).setV 0 0x02) := by decide

/-- S8. -/
theorem test_9xy0_taken :
    let s := start 0x9120 [(1, 0x07), (2, 0x08)]
    after s = some ((fetched s 0x9120).setPc 0x204) := by decide

/-- S10. -/
theorem test_9xy0_same_register :
    let s := start 0x9110 [(1, 0x07)]
    after s = some (fetched s 0x9110) := by decide

/-- M1. -/
theorem test_Annn_loads_index :
    let s : State := start 0xA300
    after s = some ({ fetched s 0xA300 with index := 0x300 }) := by decide

/-- J7. -/
theorem test_Bnnn_adds_v0 :
    let s := start 0xB300 [(0, 0x10)]
    after s = some ((fetched s 0xB300).setPc 0x310) := by decide

/-- J8. -/
theorem test_Bnnn_beyond_memory :
    let s := start 0xBFFF [(0, 0xFF)]
    after s = some ((fetched s 0xBFFF).setPc 0x10FE) := by decide

/-- K1 to K3: V3 is the free byte ANDed with the mask, whatever that byte is; the mask 0 leaves 0. -/
theorem test_Cxnn_masks_the_free_byte :
    exec (.opCxnn 3 0x0F) State.reset =
      .next { State.reset with v := State.reset.v.set 3 (Config.rand 0 &&& 0x0F), draws := 1 } := rfl

/-- D4 with V1 = 40 and V0 = 0x7C: start (60, 8). -/
theorem test_Dxyn_wraps_start_and_clips :
    let s : State := { start 0xD011 [(0, 0x7C), (1, 0x28)] with index := 0x09B }
    after s = some ({ fetched s 0xD011 with fb := lit [(60, 8), (61, 8), (62, 8), (63, 8)] }) := by decide

/-- D6. -/
theorem test_Dxyn_second_draw_collides :
    let s : State := { start 0xD015 with index := 0x050, fb := lit glyph0 }
    after s = some (({ fetched s 0xD015 with fb := State.reset.fb } : State).setV 15 1) := by decide

/-- K4. -/
theorem test_Ex9E_pressed :
    let s : State := { start 0xE59E [(5, 0x0A)] with keys := State.reset.keys.set 10 true }
    after s = some ((fetched s 0xE59E).setPc 0x204) := by decide

/-- K6. -/
theorem test_Ex9E_bad_key :
    let s : State := start 0xE59E [(5, 0x10)]
    after s = some ((fetched s 0xE59E).raise (.keyIndexOutOfRange 0x10)) := by decide

/-- K7. -/
theorem test_ExA1_released :
    let s : State := start 0xE5A1 [(5, 0x0A)]
    after s = some ((fetched s 0xE5A1).setPc 0x204) := by decide

/-- K8. -/
theorem test_ExA1_pressed :
    let s : State := { start 0xE5A1 [(5, 0x0A)] with keys := State.reset.keys.set 10 true }
    after s = some (fetched s 0xE5A1) := by decide

/-- K11. -/
theorem test_Fx07_reads_dt :
    let s : State := { start 0xF407 with dt := 60, st := 7 }
    after s = some ((fetched s 0xF407).setV 4 0x3C) := by decide

/-- K12. -/
theorem test_Fx0A_polls :
    let s : State := start 0xF30A [(3, 0x44)]
    after s = some ((fetched s 0xF30A).setPc 0x200) := by decide

/-- K13. -/
theorem test_Fx0A_lowest_key :
    let s : State := { start 0xF30A [(3, 0x44)] with keys := (State.reset.keys.set 3 true).set 7 true }
    after s = some ((fetched s 0xF30A).setV 3 3) := by decide

/-- K15. -/
theorem test_Fx15_writes_dt :
    let s : State := start 0xF115 [(1, 0x3C)]
    after s = some ({ fetched s 0xF115 with dt := 60 }) := by decide

/-- K16. -/
theorem test_Fx18_writes_st :
    let s : State := start 0xF118 [(1, 0x05)]
    after s = some ({ fetched s 0xF118 with st := 5 }) := by decide

/-- M3. -/
theorem test_Fx1E_wraps :
    let s : State := { start 0xF01E [(0, 1)] with index := 0xFFFF }
    after s = some ({ fetched s 0xF01E with index := 0 }) := by decide

/-- M5. -/
theorem test_Fx29_digit :
    let s : State := start 0xF329 [(3, 0x0A)]
    after s = some ({ fetched s 0xF329 with index := 0x0082 }) := by decide

/-- M7. -/
theorem test_Fx29_not_reduced :
    let s : State := start 0xF029 [(0, 0xFF)]
    after s = some ({ fetched s 0xF029 with index := 0x054B }) := by decide

/-- M8. -/
theorem test_Fx33_digits :
    let s : State := { start 0xF033 [(0, 0x9C)] with index := 0x300 }
    after s = some ((fetched s 0xF033).writeBytes 0x300 [1, 5, 6]) := by decide

/-- M12. -/
theorem test_Fx33_past_memory :
    let s : State := { start 0xF033 [(0, 0x9C)] with index := 0xFFE }
    after s = some ((fetched s 0xF033).raise (.memoryOutOfRange 0x1000)) := by decide

/-- M20, first cycle. -/
theorem test_Fx55_stores_in_order :
    let s : State := { start 0xF255 [(0, 0x11), (1, 0x22), (2, 0x33)] with index := 0x300 }
    after s = some ({ (fetched s 0xF255).writeBytes 0x300 [0x11, 0x22, 0x33] with index := 0x303 }) := by decide

/-- M16. -/
theorem test_Fx55_past_memory :
    let s : State := { start 0xF055 with index := 0x2000 }
    after s = some ((fetched s 0xF055).raise (.memoryOutOfRange 0x2000)) := by decide

/-- M17. -/
theorem test_Fx65_loads_in_order :
    let s : State := { (start 0xF265).writeBytes 0x300 [1, 5, 6] with index := 0x303 - 3 }
    after s = some ({ (((fetched s 0xF265).setV 0 1).setV 1 5).setV 2 6 with index := 0x303 }) := by decide

/-- M19. -/
theorem test_Fx65_past_memory :
    let s : State := { start 0xF165 with index := 0xFFF }
    after s = some ((fetched s 0xF165).raise (.memoryOutOfRange 0x1000)) := by decide

/-- N2. -/
theorem test_NOP_emits_event :
    let s : State := start 0xF0FF [(0, 0x11)]
    after s = some ({ fetched s 0xF0FF with diag := [0xF0FF] }) := by decide

/-! ## Host actions -/

/-- H1: a ROM of 3585 bytes is rejected. -/
theorem test_loadRom_too_large : loadResult (List.replicate 3585 0xAB) = .romTooLarge :=
  if_pos (by rw [List.length_replicate]; decide)

/-- P1: the ROM of the source's scenario, as memory holds it. -/
theorem test_loadRom_copies :
    (State.reset.loadRom [0x60, 0x05, 0x61]).mem = [(0x200, 0x60), (0x201, 0x05), (0x202, 0x61)] := by decide

/-- H4, H5: ticks stop at zero, and the two timers are independent. -/
theorem test_ticks :
    ({ State.reset with dt := 1 } : State).tickDt.dt = 0 ∧ State.reset.tickDt.dt = 0 ∧
    ({ State.reset with dt := 5, st := 2 } : State).tickSt = { State.reset with dt := 5, st := 1 } := by decide

/-- 60_exceptions.md R214: before `reset` nothing but `reset` is admitted. -/
theorem test_host_must_reset_first :
    act Config.defaultFont .cycle { state := State.reset, phase := .unbuilt, romResult := none } = .refused .notReset := rfl

/-! ## Witnesses: the hypotheses of every obligation that has some can be met together -/

/-- The hypotheses of StepRunsDecodedInstruction, at 0x200 and at the last word of memory. -/
theorem witness_StepRunsDecodedInstruction :
    (let s := start 0x6005
     s.fault = none ∧ s.pc.toNat + 1 ≤ 0xFFF ∧
     decode [s.readByte s.pc.toNat, s.readByte (s.pc.toNat + 1)] = .ok (.op6xnn 0 5, []) ∧
     WellFormed (.op6xnn 0 5) = true) ∧
    (let s : State := { State.reset.writeBytes 0xFFE [0x80, 0x08] with pc := 0xFFE }
     s.fault = none ∧ s.pc.toNat + 1 ≤ 0xFFF ∧
     decode [s.readByte s.pc.toNat, s.readByte (s.pc.toNat + 1)] = .ok (.opNOP 0x8008, []) ∧
     WellFormed (.opNOP 0x8008) = true) := by decide

/-- ResetValues: a FONT that is not the default. -/
theorem witness_ResetValues : ∃ s, s = State.resetWith oneFont ∧ oneFont ≠ Config.defaultFont :=
  ⟨_, rfl, by decide⟩

theorem witness_FetchPastMemoryRaises :
    let s : State := { State.reset with pc := 0xFFF }
    s.fault = none ∧ 0xFFF < s.pc.toNat + 1 := by decide

theorem witness_FaultedCoreNeverMoves : Faulted { State.reset with fault := some .stackUnderflow } := by
  simp [Faulted]

/-- A state inside a call, from which the step of a return runs. -/
def inCall : State :=
  { start 0x00EE with sp := 1, stack := State.reset.stack.set 0 0x250 }

theorem inv_of_inCall : Inv inCall where
  memWf := by decide
  spLegal := by decide
  stackBound := by decide
  pcBound := by decide
  faultFits := trivial

theorem witness_StepKeepsInvariant : Inv inCall ∧ ∃ t, step inCall = .next t ∧ t.pc = 0x250 :=
  ⟨inv_of_inCall, _, rfl, by decide⟩

theorem witness_StepAlwaysAnswers : Inv inCall := inv_of_inCall

/-- Both premises of HostRunsKeepInvariant, a run that answers, and one from a session without the invariant. -/
theorem witness_HostRunsKeepInvariant :
    let font := oneFont
    (∃ z : Session, z.phase = .unbuilt ∧
      ∃ w, runActions font [.reset, .loadRom [0x60, 0x05], .cycle, .tickDt] z = .next w ∧ w.state.getV 0 = 5) ∧
    (∃ z : Session, z.phase = .running ∧ Inv z.state) ∧
    (∃ z : Session, z.phase = .running ∧ ¬ Inv z.state ∧ ∃ w, runActions font [.reset, .cycle] z = .next w) :=
  ⟨⟨{ state := State.reset, phase := .unbuilt, romResult := none }, rfl, _, rfl, by decide⟩,
    ⟨{ state := inCall, phase := .running, romResult := none }, rfl, inv_of_inCall⟩,
    ⟨{ state := { State.reset with sp := 17 }, phase := .running, romResult := none }, rfl,
      fun h => absurd h.spLegal (by decide), _, rfl⟩⟩

theorem witness_RaisingHandlerWritesNothing :
    State.reset.fault = none ∧ ∃ t, exec .op00EE State.reset = .next t ∧ t.fault ≠ none :=
  ⟨rfl, _, rfl, by decide⟩

/-- HandlerFaultCause for a handler that raises and for one that does not. -/
theorem witness_HandlerFaultCause :
    State.reset.fault = none ∧ (∃ t, exec .op00EE State.reset = .next t) ∧
    (∃ t, exec (.opDxyn 0 1 0xF) { State.reset with index := 0xFF2 } = .next t) ∧
    ∃ t, exec (.op6xnn 0 5) State.reset = .next t :=
  ⟨rfl, ⟨_, rfl⟩, ⟨_, rfl⟩, ⟨_, rfl⟩⟩

/-- RegisterWriters: a register outside the destinations, and VF with an instruction that writes no flag. -/
theorem witness_RegisterWriters :
    (∃ t, exec (.opFx65 14) State.reset = .next t) ∧ (14 : Reg) ≠ 15 ∧ (14 : Reg) ∉ destRegs (.op8xy4 0 1) ∧
    (∃ t, exec (.op8xy4 0 1) State.reset = .next t) ∧
    (15 : Reg) ∉ destRegs (.opFx65 14) ∧ writesFlag (.opFx65 14) = false :=
  ⟨⟨_, rfl⟩, by decide, by decide, ⟨_, rfl⟩, by decide, by decide⟩

theorem witness_IndexWriters :
    (∃ t, exec (.opFx33 0) State.reset = .next t) ∧ (∀ nnn, Instr.opFx33 0 ≠ .opAnnn nnn) ∧
    (∀ x, Instr.opFx33 0 ≠ .opFx1E x) ∧ (∀ x, Instr.opFx33 0 ≠ .opFx29 x) ∧ (∀ x, Instr.opFx33 0 ≠ .opFx55 x) ∧
    (∀ x, Instr.opFx33 0 ≠ .opFx65 x) := by
  refine ⟨⟨_, rfl⟩, ?_⟩
  simp

theorem witness_PcWriters :
    (∃ t, exec (.op6xnn 0 5) State.reset = .next t) ∧ (∀ a, Instr.op6xnn 0 5 ≠ .op1nnn a) ∧
    (∀ a, Instr.op6xnn 0 5 ≠ .op2nnn a) ∧ (∀ a, Instr.op6xnn 0 5 ≠ .opBnnn a) ∧ Instr.op6xnn 0 5 ≠ .op00EE ∧
    (∀ x b, Instr.op6xnn 0 5 ≠ .op3xnn x b) ∧ (∀ x b, Instr.op6xnn 0 5 ≠ .op4xnn x b) ∧
    (∀ x y, Instr.op6xnn 0 5 ≠ .op5xy0 x y) ∧ (∀ x y, Instr.op6xnn 0 5 ≠ .op9xy0 x y) ∧
    (∀ x, Instr.op6xnn 0 5 ≠ .opEx9E x) ∧ (∀ x, Instr.op6xnn 0 5 ≠ .opExA1 x) ∧
    (∀ x, Instr.op6xnn 0 5 ≠ .opFx0A x) := by
  refine ⟨⟨_, rfl⟩, ?_⟩
  simp

/-- StackWriters: a return (its first and second clauses) and a jump (all three), on the same stack. -/
theorem witness_StackWriters :
    (∃ t, exec .op00EE inCall = .next t) ∧ (∀ a, Instr.op00EE ≠ .op2nnn a) ∧
    (∃ t, exec (.op2nnn 0x300) inCall = .next t) ∧ (0 : Fin 16).val ≠ inCall.sp.toNat ∧
    (15 : Fin 16).val ≠ inCall.sp.toNat ∧
    (∃ t, exec (.op1nnn 0x300) inCall = .next t) ∧ (∀ a, Instr.op1nnn 0x300 ≠ .op2nnn a) ∧
    Instr.op1nnn 0x300 ≠ .op00EE :=
  ⟨⟨_, rfl⟩, by simp, ⟨_, rfl⟩, by decide, by decide, ⟨_, rfl⟩, by simp, by simp⟩

theorem witness_TimerAndFramebufferWriters :
    (∃ t, exec (.opFx15 0) State.reset = .next t) ∧ (∀ x, Instr.opFx15 0 ≠ .opFx18 x) ∧
    (∃ t, exec (.opFx18 0) State.reset = .next t) ∧ (∀ x, Instr.opFx18 0 ≠ .opFx15 x) ∧
    Instr.opFx15 0 ≠ .op00E0 ∧ (∀ x y n, Instr.opFx15 0 ≠ .opDxyn x y n) :=
  ⟨⟨_, rfl⟩, by simp, ⟨_, rfl⟩, by simp, by simp, by simp⟩

/-- MemoryWriters: an instruction that stores nothing, and both that store, up to the last byte of memory. -/
theorem witness_MemoryWriters :
    (∃ t, exec (.op6xnn 0 5) State.reset = .next t) ∧ (∀ x, Instr.op6xnn 0 5 ≠ .opFx33 x) ∧
    (∀ x, Instr.op6xnn 0 5 ≠ .opFx55 x) ∧
    (∃ t, exec (.opFx33 0) { State.reset with index := 0xFFD } = .next t) ∧
    (∃ t, exec (.opFx55 15) { State.reset with index := 0xFF0 } = .next t) :=
  ⟨⟨_, rfl⟩, by simp, by simp, ⟨_, rfl⟩, ⟨_, rfl⟩⟩

theorem witness_KeypadAndOpcodeKept :
    (∃ t, exec (.opFx0A 0) State.reset = .next t) ∧ ∃ t, exec (.opNOP 0x8008) State.reset = .next t :=
  ⟨⟨_, rfl⟩, ⟨_, rfl⟩⟩

theorem witness_OpcodeAndSoundTimerNeverRead :
    (∀ u, Instr.opFx07 0 ≠ .opNOP u) ∧ (∀ x, Instr.opFx07 0 ≠ .opFx18 x) ∧ ∃ x, Instr.opFx18 1 = .opFx18 x :=
  ⟨by simp, by simp, _, rfl⟩

theorem witness_RandomInputOnlyInCxnn : ∀ x nn, Instr.op6xnn 0 5 ≠ .opCxnn x nn := by simp

/-- The range of a draw: no row at any I, and fifteen rows that end at the last byte of memory. -/
theorem witness_DrawXorsVisiblePixels :
    InRange { State.reset with index := 0xFFFF } (0 : Nibble).toNat ∧
    InRange { State.reset with index := 0xFF1 } (0xF : Nibble).toNat :=
  ⟨.inl rfl, .inr (by decide)⟩

/-- Both clauses on VF: glyph 0 on an empty screen and on itself. -/
theorem witness_DrawXorsVisiblePixels_collision :
    spriteCollides { State.reset with index := 0x050, fb := lit [(0, 0)] } 0 1 5 ∧
    ¬ spriteCollides { State.reset with index := 0x050 } 0 1 5 := by
  refine ⟨⟨0, 0, by decide, by decide, by decide, by decide⟩, ?_⟩
  have h : ∀ r : Fin 32, State.reset.fb[r.val] = 0 := by decide
  rintro ⟨c, r, -, hr, -, hp⟩
  have hp : Frame.pixel State.reset.fb c r = true := hp
  rw [Frame.pixel, dif_pos hr, h ⟨r, hr⟩] at hp
  simp at hp

theorem witness_DrawTwiceRestoresScreen :
    (0 : Reg) ≠ 15 ∧ (14 : Reg) ≠ 15 ∧ InRange { State.reset with index := 0xFF1 } (0xF : Nibble).toNat :=
  ⟨by decide, by decide, .inr (by decide)⟩

theorem witness_SecondDrawCollidesWheneverVisible :
    (0 : Reg) ≠ 15 ∧ (1 : Reg) ≠ 15 ∧ InRange { State.reset with index := 0x050 } (5 : Nibble).toNat ∧
    ∃ t u, exec (.opDxyn 0 1 5) { State.reset with index := 0x050 } = .next t ∧ exec (.opDxyn 0 1 5) t = .next u :=
  ⟨by decide, by decide, .inr (by decide), _, _, rfl, rfl⟩

/-- An empty stack, one entry in use, and all sixteen. -/
theorem witness_ReturnPopsStack :
    State.reset.sp = 0 ∧
    ({ State.reset with sp := 1 } : State).sp.toNat = (0 : Fin 16).val + 1 ∧
    ({ State.reset with sp := 16 } : State).sp.toNat = (15 : Fin 16).val + 1 := by decide

theorem witness_ReturnBeyondStackStops : 16 < ({ State.reset with sp := 17 } : State).sp.toNat := by decide

/-- A full stack, an empty one, and the last free entry. -/
theorem witness_CallPushesAndJumps :
    16 ≤ ({ State.reset with sp := 16 } : State).sp.toNat ∧ State.reset.sp.toNat < 16 ∧ ({ State.reset with sp := 15 } : State).sp.toNat < 16 := by decide

/-- A call with fifteen entries in use, and a later state with the stack and sp it left. -/
theorem witness_ReturnUndoesCall :
    let s : State := { State.reset with sp := 15 }
    s.sp.toNat < 16 ∧ ∃ t, exec (.op2nnn 0x300) s = .next t ∧
      (fetched t 0x00EE).stack = t.stack ∧ (fetched t 0x00EE).sp = t.sp :=
  ⟨by decide, _, rfl, rfl, rfl⟩

/-- The conditions of the four register skips, each both ways. -/
theorem witness_RegisterSkips :
    State.reset.getV 0 = 0 ∧ State.reset.getV 0 ≠ 1 ∧ State.reset.getV 0 = State.reset.getV 1 ∧
    State.reset.getV 0 ≠ (State.reset.setV 1 7).getV 1 := by decide

theorem witness_AddSetsCarry :
    let s := (State.reset.setV 0 0xFF).setV 1 1
    (0 : Reg) ≠ 15 ∧ 255 < (s.getV 0).toNat + (s.getV 1).toNat ∧ ¬ 255 < (s.getV 0).toNat + (s.getV 2).toNat := by
  decide

/-- The four cases of x and y against 0xF in the flag-writing subtractions and shifts, and the flag both ways. -/
theorem witness_SubtractSetsNoBorrow :
    let s := (State.reset.setV 0 5).setV 1 3
    (1 : Byte) = (if (s.getV 1).toNat < (s.getV 0).toNat then 1 else 0) ∧
    (0 : Byte) = (if (s.getV 0).toNat < (s.getV 0).toNat then 1 else 0) ∧
    (0 : Reg) ≠ 15 ∧ (14 : Reg) ≠ 15 ∧ (15 : Reg) = 15 := by decide

theorem witness_ReverseSubtractSetsNoBorrow :
    let s := (State.reset.setV 0 3).setV 1 5
    (1 : Byte) = (if (s.getV 0).toNat < (s.getV 1).toNat then 1 else 0) ∧
    (0 : Byte) = (if (s.getV 1).toNat < (s.getV 1).toNat then 1 else 0) ∧
    (0 : Reg) ≠ 15 ∧ (14 : Reg) ≠ 15 ∧ (15 : Reg) = 15 := by decide

theorem witness_ShiftRightSetsBitOut : (0 : Reg) ≠ 15 ∧ (14 : Reg) ≠ 15 ∧ (15 : Reg) = 15 := by decide

theorem witness_ShiftLeftSetsBitOut : (0 : Reg) ≠ 15 ∧ (14 : Reg) ≠ 15 ∧ (15 : Reg) = 15 := by decide

/-- The last I at which three bytes exist, the next one, and one above 0xFFF. -/
theorem witness_StoreBcdDigits :
    InRange { State.reset with index := 0xFFD } 3 ∧
    FirstOutside { State.reset with index := 0xFFE } 3 0x1000 ∧
    FirstOutside { State.reset with index := 0x1001 } 3 0x1001 :=
  ⟨.inr (by decide), ⟨2, by decide, rfl, by decide, by decide⟩, ⟨0, by decide, rfl, by decide, by decide⟩⟩

/-- The last I at which sixteen bytes exist, the first and the last register of the range, and the next I. -/
theorem witness_StoreRegistersAdvancesIndex :
    InRange { State.reset with index := 0xFF0 } ((15 : Reg).val + 1) ∧ (0 : Reg) ≤ 15 ∧ (15 : Reg) ≤ 15 ∧
    FirstOutside { State.reset with index := 0xFF1 } ((15 : Reg).val + 1) 0x1000 :=
  ⟨.inr (by decide), by decide, by decide, ⟨15, by decide, rfl, by decide, by decide⟩⟩

theorem witness_LoadRegistersAdvancesIndex :
    InRange { State.reset with index := 0xFFF } ((0 : Reg).val + 1) ∧ (0 : Reg) ≤ 0 ∧ (0 : Reg) < 1 ∧
    FirstOutside { State.reset with index := 0x1000 } ((0 : Reg).val + 1) 0x1000 :=
  ⟨.inr (by decide), by decide, by decide, ⟨0, by decide, rfl, by decide, by decide⟩⟩

/-- Each clause at the lowest I that raises, with the address 0x1000; and I itself above 0xFFF. -/
theorem witness_OutOfRangeAccessRaises :
    (let s : State := { State.reset with index := 0xFFF }
     (0x1000 : Word) = (if s.index.toNat ≤ 0xFFF then 0x1000 else s.index) ∧ (2 : Nibble) ≠ 0 ∧
     0x1000 < s.index.toNat + (2 : Nibble).toNat ∧ 0x1000 < s.index.toNat + (1 : Reg).val + 1) ∧
    (let s : State := { State.reset with index := 0xFFE }
     (0x1000 : Word) = (if s.index.toNat ≤ 0xFFF then 0x1000 else s.index) ∧ 0x1000 < s.index.toNat + 3) ∧
    (let s : State := { State.reset with index := 0x1001 }
     (0x1001 : Word) = (if s.index.toNat ≤ 0xFFF then 0x1000 else s.index) ∧ (1 : Nibble) ≠ 0 ∧
     0x1000 < s.index.toNat + (1 : Nibble).toNat ∧ 0x1000 < s.index.toNat + 3 ∧
     0x1000 < s.index.toNat + (0 : Reg).val + 1) := by decide

/-- A store of all sixteen registers at the top of memory, and the state with I set back. -/
theorem witness_StoreThenLoadRestoresRegisters :
    let s : State := { State.reset with index := 0xFF0 }
    InRange s ((15 : Reg).val + 1) ∧ ∃ t, exec (.opFx55 15) s = .next t ∧
      (∀ a, (t.setIndex 0xFF0).readByte a = t.readByte a) ∧ (t.setIndex 0xFF0).index = s.index ∧ (0 : Reg) ≤ 15 :=
  ⟨.inr (by decide), _, exec_effect (by decide) (by simp [stops]), fun _ => by simp only [State.readByte, State.setIndex_mem],
    State.setIndex_index _ _, by decide⟩

/-- Two registers stored as the last two bytes of memory and a pc that points to them, and one byte fetched as the
low byte of a word. -/
theorem witness_StoredBytesAreFetched :
    let s : State := { State.reset with index := 0xFFE }
    (1 : Reg) ≤ 1 ∧ (0 : Reg) ≤ 1 ∧ (0xFFE : Word).toNat = s.indexAddr (0 : Reg).val ∧
    (0xFFE : Word).toNat + 1 = s.indexAddr (1 : Reg).val ∧ (0xFFE : Word).toNat + 1 ≤ 0xFFF ∧ InRange s ((1 : Reg).val + 1) ∧ ∃ t, exec (.opFx55 1) s = .next t ∧
      (∀ a, (t.setPc 0xFFE).readByte a = t.readByte a) ∧ (t.setPc 0xFFE).pc = 0xFFE :=
  ⟨by decide, by decide, by decide, by decide, by decide, .inr (by decide), _, exec_effect (by decide) (by simp [stops]),
    fun _ => by simp only [State.readByte, State.setPc_mem], State.setPc_pc _ _⟩

/-- The first and the last digit of Fx33, at the last I at which three bytes exist, fetched from the last word. -/
theorem witness_StoredBytesAreFetched_digits :
    let s : State := { State.reset.setV 0 0x9C with index := 0xFFD }
    InRange s 3 ∧ (bcdDigits (s.getV 0))[0]? = some 1 ∧ (bcdDigits (s.getV 0))[2]? = some 6 ∧
    (0xFFD : Word).toNat = s.indexAddr 0 ∧ (0xFFE : Word).toNat + 1 = s.indexAddr 2 ∧
    ∃ t, exec (.opFx33 0) s = .next t ∧ ∀ a, (t.setPc 0xFFE).readByte a = t.readByte a :=
  ⟨.inr (by decide), by decide, by decide, by decide, by decide, _, exec_effect (by decide) (by simp [stops]),
    fun _ => by simp only [State.readByte, State.setPc_mem]⟩

/-- The first and the last key, the last one pressed, and the lowest and the highest number of no key. -/
theorem witness_KeySkips :
    let s := (State.reset.setV 1 0xF).setKeys (State.reset.keys.set 15 true)
    (s.getV 0).toNat = (0 : Fin 16).val ∧ s.keys[(0 : Fin 16).val] = false ∧
    (s.getV 1).toNat = (15 : Fin 16).val ∧ s.keys[(15 : Fin 16).val] = true ∧
    0xF < ((State.reset.setV 0 0x10).getV 0).toNat ∧ 0xF < ((State.reset.setV 0 0xFF).getV 0).toNat := by decide

/-- No key, the first key, and the last key alone. -/
theorem witness_KeyWaitPolls :
    (∀ k : Fin 16, State.reset.keys[k.val] = false) ∧
    (let s := State.reset.setKeys (State.reset.keys.set 0 true)
     s.keys[(0 : Fin 16).val] = true ∧ ∀ j : Fin 16, j < 0 → s.keys[j.val] = false) ∧
    (let s := State.reset.setKeys (State.reset.keys.set 15 true)
     s.keys[(15 : Fin 16).val] = true ∧ ∀ j : Fin 16, j < 15 → s.keys[j.val] = false) := by decide

theorem witness_DecodeEncodeRoundTrip :
    WellFormed (.opDxyn 0xF 0 0xF) = true ∧ WellFormed (.opNOP 0xFFFF) = true := by decide

theorem witness_OpcodeRowsDisjoint :
    ∃ r : OpcodeRow, r ∈ opcodeTable ∧ r.mnemonic = "00EE" ∧ selects 0x0FFE r = true := by decide

/-- A no-op word, and a word that is none. -/
theorem witness_NoOpForUnrecognizedWords :
    unrecognized 0x0FFF = true ∧ decodeWord 0x0FFF = .opNOP 0x0FFF ∧ unrecognized 0x0FFE = false := by decide

/-- The empty ROM, the longest one with its last byte, and one byte more. -/
theorem witness_LoadRomCopiesOrRejects :
    ([] : List Byte).length ≤ 3584 ∧ (List.replicate 3584 (0xAB : Byte)).length ≤ 3584 ∧
    (List.replicate 3584 (0xAB : Byte))[3583]? = some 0xAB ∧ 3584 < (List.replicate 3585 (0xAB : Byte)).length := by
  rw [List.length_replicate, List.length_replicate, List.getElem?_replicate]
  decide

/-- Each phase HostActionOrder names, and a step that answers. -/
theorem witness_HostActionOrder :
    (⟨State.reset, .unbuilt, none⟩ : Session).phase = .unbuilt ∧ Action.cycle ≠ .reset ∧
    (⟨State.reset, .built, none⟩ : Session).phase = .built ∧
    ((⟨State.reset, .loaded, none⟩ : Session).phase = .loaded ∨
      (⟨State.reset, .loaded, none⟩ : Session).phase = .running) ∧
    (⟨State.reset, .running, none⟩ : Session).phase ≠ .unbuilt ∧ ∃ t, step State.reset = .next t :=
  ⟨rfl, by decide, rfl, .inl rfl, by decide, _, rfl⟩

theorem witness_TicksAndKeyWrites :
    (⟨State.reset, .built, none⟩ : Session).phase ≠ .unbuilt ∧
    (⟨State.reset, .running, none⟩ : Session).phase ≠ .unbuilt := by decide

/-- A jump to itself, and a key wait with no key pressed. -/
theorem witness_ParkedAndPollingStatesStay : Parked (start 0x1200) ∧ Polling (start 0xF30A) :=
  ⟨⟨rfl, 0x200, by decide, by decide⟩, ⟨rfl, ⟨3, by decide⟩, by decide⟩⟩

/-- The invariant meets each kind of fault information it speaks of. -/
theorem witness_FaultInfoFits :
    FaultInfoFits { State.reset with pc := 0xFFF, fault := some (.fetchOutOfRange 0xFFF) } ∧
    FaultInfoFits { State.reset with index := 0xFFE, fault := some (.memoryOutOfRange 0x1000) } ∧
    FaultInfoFits { State.reset with index := 0x2000, fault := some (.memoryOutOfRange 0x2000) } ∧
    FaultInfoFits { State.reset with sp := 16, fault := some .stackOverflow } ∧
    FaultInfoFits { State.reset with fault := some .stackUnderflow } ∧
    FaultInfoFits { State.reset.setV 3 0x10 with fault := some (.keyIndexOutOfRange 0x10) } := by
  refine ⟨⟨rfl, by decide⟩, by rfl, by rfl, by rfl, by rfl, by decide, 3, by decide⟩

end Sys2Proof.Tests
end

section
/-! O52 (30_encoding.md R94). The decoder's tables (R84 to R90) send a word to the instruction whose row of the opcode
map the word selects; as no word selects two rows, that row is the one the map finds. An unrecognized word selects
none, and the decoder makes it a no-op. -/

namespace Sys2Proof

/-! ## A word put together again from its fields -/

theorem formatXY_fields (w : Word) : formatXY (opField w) (xField w) (yField w) (nField w) = w := by
  simp only [formatXY, xField, yField, regBits_toReg]
  exact (word_eq_nibbles w).symm

theorem formatA_fields (w : Word) : formatA (opField w) (nnnField w) = w := by
  have h := formatXY_fields w
  have hnnn := congrArg nnnField h
  rw [formatXY, nnnField_append] at hnnn
  rwa [formatXY, hnnn] at h

theorem formatXB_fields (w : Word) : formatXB (opField w) (xField w) (nnField w) = w := by
  have h := formatXY_fields w
  have hnn := congrArg nnField h
  rw [formatXY, nnField_append] at hnn
  rwa [formatXY, hnn] at h

/-! ## The row of the opcode map that a word selects -/

/-- Two rows of the map whose patterns agree on the bits under both masks are one row. -/
theorem opcodeTable_patterns_conflict :
    ∀ q ∈ opcodeTable, ∀ r ∈ opcodeTable, q.pattern &&& r.mask = r.pattern &&& q.mask → q = r := by
  decide

theorem selects_unique {w : Word} {q r : OpcodeRow} (hq : q ∈ opcodeTable) (hr : r ∈ opcodeTable)
    (hwq : selects w q = true) (hwr : selects w r = true) : q = r := by
  refine opcodeTable_patterns_conflict q hq r hr ?_
  rw [← show w &&& q.mask = q.pattern by simpa [selects] using hwq,
    ← show w &&& r.mask = r.pattern by simpa [selects] using hwr]
  ac_rfl

theorem tableMnemonic_of_selects {w : Word} {r : OpcodeRow} (hr : r ∈ opcodeTable) (hw : selects w r = true) :
    tableMnemonic w = r.mnemonic := by
  unfold tableMnemonic
  cases hfind : opcodeTable.find? (selects w) with
  | none => exact absurd hw (List.find?_eq_none.1 hfind r hr)
  | some q => rw [selects_unique (List.mem_of_find?_eq_some hfind) hr (List.find?_some hfind) hw]

theorem tableMnemonic_unrecognized {w : Word} (h : unrecognized w = true) : tableMnemonic w = "NOP" := by
  have hfind : opcodeTable.find? (selects w) = none := by
    simpa [List.find?_eq_none] using selects_unrecognized h
  rw [tableMnemonic, hfind]

/-! ### The three masks: the top nibble alone, with n, and with nn -/

theorem tableMnemonic_of_opField {w : Word} {op : Nat} {name : String} (hop : (opField w).toNat = op)
    (hr : ⟨name, BitVec.ofNat 4 op ++ 0#12, 0xF000⟩ ∈ opcodeTable) : tableMnemonic w = name := by
  refine tableMnemonic_of_selects hr ?_
  subst hop
  simpa [formatA_fields] using selects_formatA (opField w) (nnnField w) name

theorem tableMnemonic_of_nField {w : Word} {op n : Nat} {name : String} (hop : (opField w).toNat = op)
    (hn : (nField w).toNat = n)
    (hr : ⟨name, BitVec.ofNat 4 op ++ (0#4 ++ (0#4 ++ BitVec.ofNat 4 n : Byte) : BitVec 12), 0xF00F⟩ ∈ opcodeTable) :
    tableMnemonic w = name := by
  refine tableMnemonic_of_selects hr ?_
  subst hop hn
  simpa [formatXY_fields] using selects_formatXY (opField w) (xField w) (yField w) (nField w) name

theorem tableMnemonic_of_nnField {w : Word} {op nn : Nat} {name : String} (hop : (opField w).toNat = op)
    (hnn : (nnField w).toNat = nn)
    (hr : ⟨name, BitVec.ofNat 4 op ++ (0#4 ++ BitVec.ofNat 8 nn : BitVec 12), 0xF0FF⟩ ∈ opcodeTable) :
    tableMnemonic w = name := by
  refine tableMnemonic_of_selects hr ?_
  subst hop hnn
  simpa [formatXB_fields] using selects_formatXB (opField w) (xField w) (nnField w) name

/-! ## The decoder's tables against the map

In each table, an entry's keys are the masked bits of its row, and a key without an entry is a case of R90. -/

theorem tableMnemonic_decodeT0 {w : Word} (hop : (opField w).toNat = 0x0) :
    tableMnemonic w = (decodeT0 w).mnemonic := by
  unfold decodeT0
  split <;> simp only [Instr.mnemonic]
  case h_3 =>
    simp only [imp_false] at *
    exact tableMnemonic_unrecognized (by simp [unrecognized, ← opField_toNat, ← nField_toNat, hop]; omega)
  all_goals exact tableMnemonic_of_nField hop ‹_› (by decide)

theorem tableMnemonic_decodeT8 {w : Word} (hop : (opField w).toNat = 0x8) :
    tableMnemonic w = (decodeT8 w).mnemonic := by
  unfold decodeT8
  split <;> simp only [Instr.mnemonic]
  case h_10 =>
    simp only [imp_false] at *
    exact tableMnemonic_unrecognized (by simp [unrecognized, ← opField_toNat, ← nField_toNat, hop]; omega)
  all_goals exact tableMnemonic_of_nField hop ‹_› (by decide)

theorem tableMnemonic_decodeTE {w : Word} (hop : (opField w).toNat = 0xE) :
    tableMnemonic w = (decodeTE w).mnemonic := by
  unfold decodeTE
  split <;> simp only [Instr.mnemonic]
  case h_3 =>
    simp only [imp_false] at *
    exact tableMnemonic_unrecognized (by simp [unrecognized, ← opField_toNat, ← nField_toNat, hop]; omega)
  all_goals exact tableMnemonic_of_nField hop ‹_› (by decide)

theorem tableMnemonic_decodeTF {w : Word} (hop : (opField w).toNat = 0xF) :
    tableMnemonic w = (decodeTF w).mnemonic := by
  unfold decodeTF
  split <;> simp only [Instr.mnemonic]
  case h_10 =>
    simp only [imp_false] at *
    exact tableMnemonic_unrecognized (by simp [unrecognized, ← opField_toNat, ← nnField_toNat, hop]; omega)
  all_goals exact tableMnemonic_of_nnField hop ‹_› (by decide)

/-- The map gives the row of the instruction the decoder gives, by the first level (R84, R89). -/
theorem tableMnemonic_eq_decodeWord (w : Word) : tableMnemonic w = (decodeWord w).mnemonic := by
  unfold decodeWord
  split
  case h_1 hop => exact tableMnemonic_decodeT0 hop
  case h_9 hop => exact tableMnemonic_decodeT8 hop
  case h_15 hop => exact tableMnemonic_decodeTE hop
  case h_16 =>
    simp only [imp_false] at *
    have := (opField w).isLt
    exact tableMnemonic_decodeTF (by omega)
  all_goals
    simp only [Instr.mnemonic]
    exact tableMnemonic_of_opField ‹_› (by decide)

/-- Settles O52: the entry the decoder takes is a row the word selects, and a word selects no other row. -/
theorem twoLevelDecodeEqualsOpcodeMap : Obligations.TwoLevelDecodeEqualsOpcodeMap :=
  fun w => (tableMnemonic_eq_decodeWord w).symm

end Sys2Proof
end

section
/-! O1, O2, O9 (40_cycle_and_dispatch.md R110 to R118). A Cycle() on a core without a fault is a fetch that raises or
the handler of the fetched word, by the range of the fetch; and a raise is the only way a fault gets recorded, since
the effect of a handler that does not raise never writes the `fault` register. -/

namespace Sys2Proof.Machine

/-! ## A raise, and what a handler does with the fault register -/

/-- Taking a fault writes the `fault` register only (60_exceptions.md R202). -/
theorem onlyChanges_raise (s : State) (c : Cause) : OnlyChanges [.fault] s (s.raise c) := by
  intro p hp
  cases p
  case fault => exact absurd (List.mem_singleton.2 rfl) hp
  all_goals simp [SamePart]

@[simp] theorem State.advanceIndex_fault (s : State) (x : Reg) : (s.advanceIndex x).fault = s.fault := rfl

/-- A handler that does not raise keeps the `fault` register. -/
@[simp] theorem effect_fault (i : Instr) (s : State) : (effect i s).fault = s.fault := by
  cases i
  case opFx0A => simp only [effect]; split <;> rfl
  all_goals simp [effect]

/-- Settles O9: a next state with a fault is the state of a raise, as `effect` would have kept `fault` empty. -/
theorem raisingHandlerWritesNothing : Obligations.RaisingHandlerWritesNothing := by
  intro i s t hs ht hfault
  rcases exec_cases ht with ⟨c, -, rfl⟩ | ⟨-, -, rfl⟩
  · exact onlyChanges_raise s c
  · exact absurd ((effect_fault i s).trans hs) hfault

/-! ## The two branches of a Cycle() on a core without a fault -/

theorem step_of_fetch {s : State} (hs : s.fault = none) (hpc : s.pc.toNat + 1 ≤ 0xFFF) :
    step s = exec (decodeWord (wordOfBytes (s.readByte s.pc.toNat) (s.readByte (s.pc.toNat + 1))))
      (s.advance (wordOfBytes (s.readByte s.pc.toNat) (s.readByte (s.pc.toNat + 1)))) := by
  rw [step_eq, hs, State.fetchWord_eq_some hpc]
  rfl

theorem step_of_fetch_past_memory {s : State} (hs : s.fault = none) (hpc : 0xFFF ≤ s.pc.toNat) :
    step s = .next (s.raise (.fetchOutOfRange s.pc)) := by
  rw [step_eq, hs, State.fetchWord_eq_none.2 hpc]
  rfl

/-- Two bytes decode to the instruction of their word, with nothing left over. -/
theorem decode_pair_eq_ok {hi lo : Byte} {i : Instr} :
    decode [hi, lo] = .ok (i, []) ↔ decodeWord (wordOfBytes hi lo) = i := by
  simp [decode]

/-- Settles O1: the instruction the two bytes decode to is the one whose handler the Cycle() runs. -/
theorem stepRunsDecodedInstruction : Obligations.StepRunsDecodedInstruction := by
  intro s i hs hpc hdecode _
  rw [step_of_fetch hs hpc, decode_pair_eq_ok.1 hdecode]
  rfl

/-- Settles O2: the Cycle() ends with the raise at the fetch, which records pc and writes nothing else. -/
theorem fetchPastMemoryRaises : Obligations.FetchPastMemoryRaises := by
  intro s hs hpc
  exact ⟨_, step_of_fetch_past_memory hs (Nat.le_of_lt_succ hpc), State.raise_fault s _, onlyChanges_raise s _⟩

end Sys2Proof.Machine
end

section
/-! O20 (41_display.md R130). The effect of 00E0 writes the empty frame, in which no pixel is on, and a write to the
framebuffer reaches no other element of the state. -/

namespace Sys2Proof.Machine

@[simp] theorem Frame.pixel_clear (c r : Nat) : Frame.pixel Frame.clear c r = false := by
  by_cases hr : r < 32
  · simp [Frame.pixel, Frame.clear, hr]
  · exact Frame.pixel_of_row hr

theorem onlyChanges_frame (s : State) (fb : Frame) : OnlyChanges [.fb] s { s with fb := fb } := by
  intro p hp
  cases p
  case fb => exact absurd (List.mem_singleton.2 rfl) hp
  case mem => exact fun _ => rfl
  case v => exact fun _ => rfl
  all_goals rfl

/-- Settles O20: 00E0 neither raises nor stops, so its next state is its effect, the empty frame put into s. -/
theorem clearScreenTurnsEveryPixelOff : Obligations.ClearScreenTurnsEveryPixelOff := by
  intro s
  have hexec : exec .op00E0 s = .next { s with fb := Frame.clear } := rfl
  exact ⟨_, hexec, fun c r _ _ => Frame.pixel_clear c r, onlyChanges_frame s Frame.clear⟩

end Sys2Proof.Machine
end

section
/-! O24, O26, O27, O28 (42_control_flow.md R140 to R143). Each control transfer writes pc last, and before it at most
one stack entry and sp; its frame is the composition of the frames of these single writes. That a return undoes a
call follows from what the two handlers say of the stack and sp alone. -/

namespace Sys2Proof.Machine

/-! ## Frames compose, and the frames of a write to pc, sp and the stack -/

theorem SamePart.trans {s t u : State} {p : Part} (hst : SamePart s t p) (htu : SamePart t u p) :
    SamePart s u p := by
  cases p
  case mem => exact fun a => (htu a).trans (hst a)
  case v => exact fun r => (htu r).trans (hst r)
  all_goals exact Eq.trans htu hst

theorem OnlyChanges.append {ps qs : List Part} {s t u : State} (hst : OnlyChanges ps s t)
    (htu : OnlyChanges qs t u) : OnlyChanges (ps ++ qs) s u := by
  intro p hp
  obtain ⟨hps, hqs⟩ := not_or.1 (mt List.mem_append.2 hp)
  exact (hst p hps).trans (htu p hqs)

theorem onlyChanges_setPc (s : State) (w : Word) : OnlyChanges [.pc] s (s.setPc w) := by
  intro p hp
  cases p
  case pc => exact absurd (List.mem_singleton.2 rfl) hp
  all_goals simp [SamePart]

theorem onlyChanges_setStackEntry (s : State) (k : Nat) (w : Word) :
    OnlyChanges [.stack] s (s.setStackEntry k w) := by
  intro p hp
  cases p
  case stack => exact absurd (List.mem_singleton.2 rfl) hp
  all_goals simp [SamePart]

theorem onlyChanges_sp (s : State) (b : Byte) : OnlyChanges [.sp] s { s with sp := b } := by
  intro p hp
  cases p
  case sp => exact absurd (List.mem_singleton.2 rfl) hp
  case mem => exact fun _ => rfl
  case v => exact fun _ => rfl
  all_goals rfl

/-! ## The jump targets (R141, R143) -/

@[simp] theorem toNat_zextAddr (nnn : Addr12) : (zextAddr nnn).toNat = nnn.toNat :=
  BitVec.toNat_setWidth_of_le (by decide)

@[simp] theorem toNat_zextByte (b : Byte) : (zextByte b).toNat = b.toNat :=
  BitVec.toNat_setWidth_of_le (by decide)

/-- An address and a byte never wrap: their sum is at most 0x10FE. -/
theorem toNat_zextAddr_add_zextByte (nnn : Addr12) (b : Byte) :
    (zextAddr nnn + zextByte b).toNat = nnn.toNat + b.toNat := by
  have hsum : (zextAddr nnn).toNat + (zextByte b).toNat < 2 ^ 16 := by
    rw [toNat_zextAddr, toNat_zextByte]; omega
  rw [BitVec.toNat_add_of_lt hsum, toNat_zextAddr, toNat_zextByte]

/-- Settles O26: both jumps set pc and do nothing else, and neither target wraps. -/
theorem jumpsSetPc : Obligations.JumpsSetPc := by
  intro s nnn
  have hjump : exec (.op1nnn nnn) s = .next (s.setPc (zextAddr nnn)) := rfl
  have hjumpV0 : exec (.opBnnn nnn) s = .next (s.setPc (zextAddr nnn + zextByte (s.getV 0))) := rfl
  exact ⟨⟨_, hjump, toNat_zextAddr nnn, onlyChanges_setPc s _⟩,
    ⟨_, hjumpV0, toNat_zextAddr_add_zextByte nnn _, onlyChanges_setPc s _⟩⟩

/-! ## The return (R140) -/

theorem toNat_sub_one {b : Byte} {k : Nat} (h : b.toNat = k + 1) : (b - 1).toNat = k := by
  bv_omega

theorem exec_op00EE_of_empty {s : State} (h : s.sp = 0) : exec .op00EE s = .next (s.raise .stackUnderflow) :=
  exec_raises (if_pos h)

theorem exec_op00EE_of_entry {s : State} {k : Fin 16} (h : s.sp.toNat = k.val + 1) :
    exec .op00EE s = .next ({ s with sp := s.sp - 1 }.setPc s.stack[k.val]) := by
  have hsp : s.sp ≠ 0 := fun e => by simp [e] at h
  have hfault : faultOf .op00EE s = none := if_neg hsp
  have hstop : ¬ stops .op00EE s := fun hs => absurd hs.2 (by omega)
  rw [exec_effect hfault hstop, effect, toNat_sub_one h, State.stackEntry_eq k.isLt, Option.getD_some]

/-- Settles O24: a return raises on the empty stack, and else writes sp, then pc. -/
theorem returnPopsStack : Obligations.ReturnPopsStack := by
  intro s
  constructor
  · intro hempty
    exact ⟨_, exec_op00EE_of_empty hempty, State.raise_fault s _, onlyChanges_raise s _⟩
  · intro k hk
    exact ⟨_, exec_op00EE_of_entry hk, toNat_sub_one hk, rfl,
      (onlyChanges_sp s (s.sp - 1)).append (onlyChanges_setPc _ _)⟩

/-! ## The call (R142) -/

theorem exec_op2nnn_of_full {s : State} (nnn : Addr12) (h : 16 ≤ s.sp.toNat) :
    exec (.op2nnn nnn) s = .next (s.raise .stackOverflow) :=
  exec_raises (if_pos h)

theorem exec_op2nnn_of_room {s : State} (nnn : Addr12) (h : s.sp.toNat < 16) :
    exec (.op2nnn nnn) s = .next ({ s.setStackEntry s.sp.toNat s.pc with sp := s.sp + 1 }.setPc (zextAddr nnn)) :=
  exec_effect (if_neg (Nat.not_le.2 h)) fun hs => nomatch hs.1

/-- Settles O27: a call raises on the full stack, and else writes the entry at sp, then sp, then pc. -/
theorem callPushesAndJumps : Obligations.CallPushesAndJumps := by
  intro s nnn
  constructor
  · intro hfull
    exact ⟨_, exec_op2nnn_of_full nnn hfull, State.raise_fault s _, onlyChanges_raise s _⟩
  · intro hroom
    refine ⟨_, exec_op2nnn_of_room nnn hroom, fun k => ?_, ?_, toNat_zextAddr nnn, ?_⟩
    · exact (s.getElem_setStackEntry s.sp.toNat s.pc k).trans (if_congr eq_comm rfl rfl)
    · exact BitVec.toNat_add_of_lt (Nat.add_lt_of_lt_sub (hroom.trans (by decide)))
    · exact ((onlyChanges_setStackEntry s s.sp.toNat s.pc).append (onlyChanges_sp _ (s.sp + 1))).append
        (onlyChanges_setPc _ _)

/-! ## A return after a call -/

/-- Settles O28: the entry the call wrote is the one below the sp it left, which is the entry the return pops. -/
theorem returnUndoesCall : Obligations.ReturnUndoesCall := by
  intro s nnn hroom
  obtain ⟨t, hcall, hstack, hsp, -, -⟩ := (callPushesAndJumps s nnn).2 hroom
  refine ⟨t, hcall, fun u hustack husp => ?_⟩
  obtain ⟨w, hreturn, hwsp, hwpc, -⟩ := (returnPopsStack u).2 ⟨s.sp.toNat, hroom⟩ (by rw [husp, hsp])
  have hpushed : t.stack[s.sp.toNat] = s.pc := (hstack ⟨s.sp.toNat, hroom⟩).trans (if_pos rfl)
  refine ⟨w, hreturn, ?_, BitVec.eq_of_toNat_eq hwsp⟩
  simp only [hwpc, hustack, hpushed]

end Sys2Proof.Machine
end

section
/-! O30 (43_skips.md R150 to R153). No register skip raises or stops, so its next state is its effect, which is one
write to pc: of pc + 2 when the condition holds, and of pc itself otherwise. -/

namespace Sys2Proof.Machine

/-- A handler that neither raises nor stops, and whose effect is a write of `w` to pc, leaves pc = `w` and writes
nothing else. -/
theorem exec_setPc_of_effect {i : Instr} {s : State} {w : Word} (hfault : faultOf i s = none) (hi : i ≠ .op00EE)
    (heffect : effect i s = s.setPc w) : ∃ t, exec i s = .next t ∧ t.pc = w ∧ OnlyChanges [.pc] s t := by
  have hexec : exec i s = .next (s.setPc w) := heffect ▸ exec_effect hfault fun hs => hi hs.1
  exact ⟨_, hexec, State.setPc_pc s w, onlyChanges_setPc s w⟩

/-- Settles O30: the effect of each skip is the write to pc that its rule gives. -/
theorem registerSkips : Obligations.RegisterSkips := by
  intro s x y nn
  refine ⟨?equalImmediate, ?unequalImmediate, ?equalRegister, ?unequalRegister⟩
  case equalImmediate => exact exec_setPc_of_effect (i := .op3xnn x nn) rfl nofun rfl
  case unequalImmediate => exact exec_setPc_of_effect (i := .op4xnn x nn) rfl nofun rfl
  case equalRegister => exact exec_setPc_of_effect (i := .op5xy0 x y) rfl nofun rfl
  case unequalRegister => exact exec_setPc_of_effect (i := .op9xy0 x y) rfl nofun rfl

end Sys2Proof.Machine
end

section
/-! O31 to O38 (44_register_alu.md R161 to R171). A load, a copy or a bitwise operation is one register write. The
handlers with a flag write VF, then Vx: 8xy4 computes its sum before both writes, and the other four read their
operands between them, so that an operand that is VF is the flag. `State.flagThenResult` names that pair of writes,
and its four cases of operands that are VF are proved once. -/

namespace Sys2Proof.Machine

/-! ## The frame of register writes -/

theorem State.getV_setV_self (s : State) (r : Reg) (b : Byte) : (s.setV r b).getV r = b := by simp

theorem State.getV_setV_of_ne (s : State) {r q : Reg} (b : Byte) (h : q ≠ r) : (s.setV r b).getV q = s.getV q := by
  simp [h.symm]

theorem regsKept_setV (s : State) (r : Reg) (b : Byte) : RegsKept [r] s (s.setV r b) :=
  fun _ hq => s.getV_setV_of_ne b (List.ne_of_not_mem_cons hq)

theorem onlyChanges_setV (s : State) (r : Reg) (b : Byte) : OnlyChanges [.v] s (s.setV r b) := by
  intro p hp
  cases p
  case v => exact absurd (List.mem_singleton.2 rfl) hp
  all_goals simp [SamePart]

/-- A flag write and then a result write reach VF and the destination. -/
theorem regsKept_setV_vf_setV (s : State) (f : Byte) (x : Reg) (b : Byte) :
    RegsKept [x, 15] s ((s.setV vf f).setV x b) := by
  intro q hq
  obtain ⟨hx, hvf⟩ : q ≠ x ∧ q ≠ vf := by simpa [vf] using hq
  rw [State.getV_setV_of_ne _ _ hx, State.getV_setV_of_ne _ _ hvf]

/-- Two register writes change the registers only. -/
theorem onlyChanges_setV_setV (s : State) (q : Reg) (f : Byte) (x : Reg) (b : Byte) :
    OnlyChanges [.v] s ((s.setV q f).setV x b) := fun p hp =>
  (onlyChanges_setV s q f p hp).trans (onlyChanges_setV _ x b p hp)

/-- The flag survives the result write unless the destination is VF. -/
theorem State.getV_vf_of_dest_ne (s : State) (f : Byte) {x : Reg} (b : Byte) (hx : x ≠ 15) :
    ((s.setV vf f).setV x b).getV 15 = f :=
  (State.getV_setV_of_ne _ b hx.symm).trans (s.getV_setV_self vf f)

/-! ## The 8-bit results (R160) and the flags (R22) as numbers -/

theorem toNat_add8 (a b : Byte) : (add8 a b).toNat = (a.toNat + b.toNat) % 256 := BitVec.toNat_ofNat _ 8

theorem toNat_sub8 (a b : Byte) : (sub8 a b).toNat = (a.toNat + 256 - b.toNat) % 256 := BitVec.toNat_ofNat _ 8

theorem sub8_self (b : Byte) : sub8 b b = 0 := by
  rw [sub8, Nat.add_sub_cancel_left]; rfl

theorem toNat_shr1 (b : Byte) : (shr1 b).toNat = b.toNat / 2 := by
  rw [shr1, BitVec.toNat_ushiftRight, Nat.shiftRight_eq_div_pow, pow_one]

theorem toNat_shl1 (b : Byte) : (shl1 b).toNat = 2 * b.toNat % 256 := by
  rw [shl1, BitVec.toNat_shiftLeft, Nat.shiftLeft_eq, pow_one, mul_comm]

theorem toNat_flagByte (c : Bool) : (flagByte c).toNat = c.toNat := by cases c <;> rfl

theorem carryFlag_eq (a b : Byte) : carryFlag a b = if 255 < a.toNat + b.toNat then 1 else 0 := by
  simp only [carryFlag, flagByte, decide_eq_true_eq]
  rfl

theorem noBorrowFlag_eq (a b : Byte) : noBorrowFlag a b = if b.toNat < a.toNat then 1 else 0 := by
  simp [noBorrowFlag, flagByte]

theorem toNat_shiftedOutRight (b : Byte) : (shiftedOutRight b).toNat = b.toNat % 2 := by
  rw [shiftedOutRight, toNat_flagByte, BitVec.getLsbD, Nat.toNat_testBit, pow_zero, Nat.div_one]

theorem toNat_shiftedOutLeft (b : Byte) : (shiftedOutLeft b).toNat = b.toNat / 128 := by
  rw [shiftedOutLeft, toNat_flagByte, BitVec.getLsbD, Nat.toNat_testBit]
  omega

/-- A flag shifted right leaves nothing. -/
theorem shr1_flagByte (c : Bool) : shr1 (flagByte c) = 0 := by cases c <;> rfl

/-- A flag shifted left does not wrap. -/
theorem toNat_shl1_shiftedOutLeft (b : Byte) : (shl1 (shiftedOutLeft b)).toNat = 2 * (b.toNat / 128) := by
  rw [toNat_shl1, toNat_shiftedOutLeft]
  omega

/-! ## The handlers that write no flag (R161 to R166) -/

/-- Settles O31: each of the two handlers is one register write. -/
theorem loadAndCopyRegister : Obligations.LoadAndCopyRegister := by
  intro s x y nn
  have hload : exec (.op6xnn x nn) s = .next (s.setV x nn) := rfl
  have hcopy : exec (.op8xy0 x y) s = .next (s.setV x (s.getV y)) := rfl
  exact ⟨⟨_, hload, s.getV_setV_self x _, regsKept_setV s x _, onlyChanges_setV s x _⟩,
    ⟨_, hcopy, s.getV_setV_self x _, regsKept_setV s x _, onlyChanges_setV s x _⟩⟩

/-- Settles O32: the handler is one register write, of the narrowed sum. -/
theorem addImmediateWrapsWithoutFlag : Obligations.AddImmediateWrapsWithoutFlag := by
  intro s x nn
  have hadd : exec (.op7xnn x nn) s = .next (s.setV x (add8 (s.getV x) nn)) := rfl
  refine ⟨_, hadd, ?_, regsKept_setV s x _, onlyChanges_setV s x _⟩
  rw [State.getV_setV_self, toNat_add8]

/-- Settles O33: each of the three handlers is one register write, of the bitwise combination. -/
theorem bitwiseOperations : Obligations.BitwiseOperations := by
  intro s x y
  have hor : exec (.op8xy1 x y) s = .next (s.setV x (s.getV x ||| s.getV y)) := rfl
  have hand : exec (.op8xy2 x y) s = .next (s.setV x (s.getV x &&& s.getV y)) := rfl
  have hxor : exec (.op8xy3 x y) s = .next (s.setV x (s.getV x ^^^ s.getV y)) := rfl
  refine ⟨⟨_, hor, fun k => ?_, regsKept_setV s x _, onlyChanges_setV s x _⟩,
    ⟨_, hand, fun k => ?_, regsKept_setV s x _, onlyChanges_setV s x _⟩,
    ⟨_, hxor, fun k => ?_, regsKept_setV s x _, onlyChanges_setV s x _⟩⟩
  · rw [State.getV_setV_self, BitVec.getLsbD_or]
  · rw [State.getV_setV_self, BitVec.getLsbD_and]
  · rw [State.getV_setV_self, BitVec.getLsbD_xor]

/-! ## The handler that computes before its flag write (R167) -/

/-- Settles O34: the sum is written last, so the carry survives unless the destination is VF. -/
theorem addSetsCarry : Obligations.AddSetsCarry := by
  intro s x y
  have hadd : exec (.op8xy4 x y) s =
      .next ((s.setV vf (carryFlag (s.getV x) (s.getV y))).setV x (add8 (s.getV x) (s.getV y))) := rfl
  refine ⟨_, hadd, ?_, fun hx => ?_, regsKept_setV_vf_setV s _ x _, onlyChanges_setV_setV s vf _ x _⟩
  · rw [State.getV_setV_self, toNat_add8]
  · rw [State.getV_vf_of_dest_ne _ _ _ hx, carryFlag_eq]

/-! ## The handlers that read their operands after the flag write (R168 to R171) -/

/-- VF gets the flag `f`, and then Vx the value of `g` at Vx and Vy, both read after the flag write (R117). -/
def State.flagThenResult (s : State) (f : Byte) (g : Byte → Byte → Byte) (x y : Reg) : State :=
  (s.setV vf f).setV x (g ((s.setV vf f).getV x) ((s.setV vf f).getV y))

theorem exec_op8xy5 (s : State) (x y : Reg) :
    exec (.op8xy5 x y) s = .next (s.flagThenResult (noBorrowFlag (s.getV x) (s.getV y)) sub8 x y) := rfl

theorem exec_op8xy6 (s : State) (x y : Reg) :
    exec (.op8xy6 x y) s = .next (s.flagThenResult (shiftedOutRight (s.getV y)) (fun _ b => shr1 b) x y) := rfl

theorem exec_op8xy7 (s : State) (x y : Reg) :
    exec (.op8xy7 x y) s =
      .next (s.flagThenResult (noBorrowFlag (s.getV y) (s.getV x)) (fun a b => sub8 b a) x y) := rfl

theorem exec_op8xyE (s : State) (x y : Reg) :
    exec (.op8xyE x y) s = .next (s.flagThenResult (shiftedOutLeft (s.getV y)) (fun _ b => shl1 b) x y) := rfl

section flagThenResult

variable (s : State) (f : Byte) (g : Byte → Byte → Byte) (x y : Reg)

theorem regsKept_flagThenResult : RegsKept [x, 15] s (s.flagThenResult f g x y) :=
  regsKept_setV_vf_setV s f x _

theorem onlyChanges_flagThenResult : OnlyChanges [.v] s (s.flagThenResult f g x y) :=
  onlyChanges_setV_setV s vf f x _

/-- The four cases of x and y against 0xF: an operand that is VF is read as the flag. -/
theorem State.flagThenResult_cases :
    (x ≠ 15 → y ≠ 15 → (s.flagThenResult f g x y).getV 15 = f ∧
      (s.flagThenResult f g x y).getV x = g (s.getV x) (s.getV y)) ∧
    (x = 15 → y ≠ 15 → (s.flagThenResult f g x y).getV 15 = g f (s.getV y)) ∧
    (x ≠ 15 → y = 15 → (s.flagThenResult f g x y).getV 15 = f ∧
      (s.flagThenResult f g x y).getV x = g (s.getV x) f) ∧
    (x = 15 → y = 15 → (s.flagThenResult f g x y).getV 15 = g f f) := by
  have hvf : (s.setV vf f).getV 15 = f := s.getV_setV_self vf f
  have hother {r : Reg} (hr : r ≠ 15) : (s.setV vf f).getV r = s.getV r := s.getV_setV_of_ne f hr
  have hdest : (s.flagThenResult f g x y).getV x = g ((s.setV vf f).getV x) ((s.setV vf f).getV y) :=
    State.getV_setV_self _ x _
  have hflag (hx : x ≠ 15) : (s.flagThenResult f g x y).getV 15 = f := s.getV_vf_of_dest_ne f _ hx
  refine ⟨fun hx hy => ⟨hflag hx, ?_⟩, fun hx hy => ?_, fun hx hy => ⟨hflag hx, ?_⟩, fun hx hy => ?_⟩
  · rw [hdest, hother hx, hother hy]
  · subst hx; rw [hdest, hvf, hother hy]
  · subst hy; rw [hdest, hvf, hother hx]
  · subst hx hy; rw [hdest, hvf]

end flagThenResult

/-- Settles O35: the cases of `flagThenResult_cases` with the difference Vx - Vy as the result. -/
theorem subtractSetsNoBorrow : Obligations.SubtractSetsNoBorrow := by
  intro s x y f hf
  rw [← noBorrowFlag_eq] at hf
  subst hf
  obtain ⟨hneither, hdest, hsource, hboth⟩ :=
    s.flagThenResult_cases (noBorrowFlag (s.getV x) (s.getV y)) sub8 x y
  refine ⟨_, exec_op8xy5 s x y, fun hx hy => ?_, fun hx hy => ?_, fun hx hy => ?_, fun hx hy => ?_,
    regsKept_flagThenResult s _ _ x y, onlyChanges_flagThenResult s _ _ x y⟩
  · rw [← toNat_sub8]; exact (hneither hx hy).imp_right (congrArg _)
  · rw [hdest hx hy, toNat_sub8]
  · rw [← toNat_sub8]; exact (hsource hx hy).imp_right (congrArg _)
  · rw [hboth hx hy, sub8_self]

/-- Settles O36: the cases of `flagThenResult_cases` with the difference Vy - Vx as the result. -/
theorem reverseSubtractSetsNoBorrow : Obligations.ReverseSubtractSetsNoBorrow := by
  intro s x y f hf
  rw [← noBorrowFlag_eq] at hf
  subst hf
  obtain ⟨hneither, hdest, hsource, hboth⟩ :=
    s.flagThenResult_cases (noBorrowFlag (s.getV y) (s.getV x)) (fun a b => sub8 b a) x y
  refine ⟨_, exec_op8xy7 s x y, fun hx hy => ?_, fun hx hy => ?_, fun hx hy => ?_, fun hx hy => ?_,
    regsKept_flagThenResult s _ _ x y, onlyChanges_flagThenResult s _ _ x y⟩
  · rw [← toNat_sub8]; exact (hneither hx hy).imp_right (congrArg _)
  · rw [hdest hx hy, toNat_sub8]
  · rw [← toNat_sub8]; exact (hsource hx hy).imp_right (congrArg _)
  · rw [hboth hx hy, sub8_self]

/-- Settles O37: the cases of `flagThenResult_cases` with Vy shifted right; a source that is VF is the flag, whose shift
is zero. -/
theorem shiftRightSetsBitOut : Obligations.ShiftRightSetsBitOut := by
  intro s x y
  obtain ⟨hneither, hdest, hsource, hboth⟩ :=
    s.flagThenResult_cases (shiftedOutRight (s.getV y)) (fun _ b => shr1 b) x y
  refine ⟨_, exec_op8xy6 s x y, fun hx hy => ?_, fun hx hy => ?_, fun hx hy => ?_, fun hx hy => ?_,
    regsKept_flagThenResult s _ _ x y, onlyChanges_flagThenResult s _ _ x y⟩
  · obtain ⟨hflag, hresult⟩ := hneither hx hy
    rw [hflag, hresult, toNat_shiftedOutRight, toNat_shr1]
    exact ⟨rfl, rfl⟩
  · rw [hdest hx hy, toNat_shr1]
  · obtain ⟨hflag, hresult⟩ := hsource hx hy
    rw [hflag, hresult, toNat_shiftedOutRight, hy]
    exact ⟨rfl, shr1_flagByte _⟩
  · rw [hboth hx hy]
    exact shr1_flagByte _

/-- Settles O38: the cases of `flagThenResult_cases` with Vy shifted left; a source that is VF is the flag, whose shift
is twice the bit shifted out. -/
theorem shiftLeftSetsBitOut : Obligations.ShiftLeftSetsBitOut := by
  intro s x y
  obtain ⟨hneither, hdest, hsource, hboth⟩ :=
    s.flagThenResult_cases (shiftedOutLeft (s.getV y)) (fun _ b => shl1 b) x y
  refine ⟨_, exec_op8xyE s x y, fun hx hy => ?_, fun hx hy => ?_, fun hx hy => ?_, fun hx hy => ?_,
    regsKept_flagThenResult s _ _ x y, onlyChanges_flagThenResult s _ _ x y⟩
  · obtain ⟨hflag, hresult⟩ := hneither hx hy
    rw [hflag, hresult, toNat_shiftedOutLeft, toNat_shl1]
    exact ⟨rfl, rfl⟩
  · rw [hdest hx hy, toNat_shl1]
  · obtain ⟨hflag, hresult⟩ := hsource hx hy
    rw [hflag, hresult, toNat_shl1_shiftedOutLeft, toNat_shiftedOutLeft, hy]
    exact ⟨rfl, rfl⟩
  · rw [hboth hx hy, toNat_shl1_shiftedOutLeft, hy]

end Sys2Proof.Machine
end

section
/-! O39 to O42, O44 (45_index_memory.md R180 to R185, 90_conflicts.md C10). Each handler that raises nothing is a block
write or a load of registers, or neither, and then one write to I, and its frame is the composition of theirs. The
range clauses of the three memory transfers are one fact about `FirstOutside`. That a load undoes a store follows from
what the two statements say of memory and I alone. -/

namespace Sys2Proof.Machine

/-! ## Writes to the index register -/

theorem toNat_ofNat_eq_of_lt {w n : Nat} (h : n < 2 ^ w) : (BitVec.ofNat w n).toNat = n :=
  (BitVec.toNat_ofNat n w).trans (Nat.mod_eq_of_lt h)

theorem onlyChanges_setIndex (s : State) (w : Word) : OnlyChanges [.index] s (s.setIndex w) := by
  intro p hp
  cases p
  case index => exact absurd (List.mem_singleton.2 rfl) hp
  all_goals simp [SamePart]

theorem onlyChanges_advanceIndex (s : State) (x : Reg) : OnlyChanges [.index] s (s.advanceIndex x) :=
  onlyChanges_setIndex s _

@[simp] theorem State.getV_advanceIndex (s : State) (x r : Reg) : (s.advanceIndex x).getV r = s.getV r := rfl

@[simp] theorem State.readByte_advanceIndex (s : State) (x : Reg) (a : Nat) :
    (s.advanceIndex x).readByte a = s.readByte a := rfl

/-- After an access in range that kept I, I advances without wrapping. -/
theorem State.toNat_advanceIndex_index {s t : State} {x : Reg} (h : InRange s (x.val + 1)) (ht : t.index = s.index) :
    (t.advanceIndex x).index.toNat = s.index.toNat + x.val + 1 := by
  have hend : s.index.toNat + (x.val + 1) ≤ 0x1000 := h.resolve_left (Nat.succ_ne_zero _)
  rw [State.advanceIndex, State.setIndex_index, ht, toNat_ofNat_eq_of_lt (by omega)]

/-- The largest glyph address is 0x050 + 5 * 255, so Fx29 never wraps. -/
theorem toNat_glyphAddr (b : Byte) : (BitVec.ofNat 16 (0x050 + 5 * b.toNat)).toNat = 0x050 + 5 * b.toNat :=
  toNat_ofNat_eq_of_lt (by omega)

/-- Settles O39: each handler is one write to I, of the value its rule gives. -/
theorem indexRegisterLoads : Obligations.IndexRegisterLoads := by
  intro s nnn x
  have hload : exec (.opAnnn nnn) s = .next (s.setIndex (zextAddr nnn)) := rfl
  have hadd : exec (.opFx1E x) s = .next (s.setIndex (s.index + zextByte (s.getV x))) := rfl
  have hglyph : exec (.opFx29 x) s = .next (s.setIndex (BitVec.ofNat 16 (0x050 + 5 * (s.getV x).toNat))) := rfl
  refine ⟨⟨_, hload, toNat_zextAddr nnn, onlyChanges_setIndex s _⟩,
    ⟨_, hadd, ?_, onlyChanges_setIndex s _⟩,
    ⟨_, hglyph, toNat_glyphAddr _, onlyChanges_setIndex s _⟩⟩
  rw [State.setIndex_index, BitVec.toNat_add, toNat_zextByte]

/-! ## The range of a memory transfer (20_memory.md R64, 60_exceptions.md R201) -/

/-- The first address outside is I itself, or it follows 0xFFF. -/
theorem FirstOutside.ofNat_eq_firstBadAddr {s : State} {n a : Nat} (h : FirstOutside s n a) :
    BitVec.ofNat 16 a = firstBadAddr s := by
  obtain ⟨k, -, rfl, hout, hbefore⟩ := h
  unfold firstBadAddr State.indexAddr at *
  cases k with
  | zero =>
    rw [Nat.add_zero] at hout ⊢
    rw [if_neg (Nat.not_le.2 hout), BitVec.ofNat_toNat, BitVec.setWidth_eq]
  | succ j =>
    have hlast : s.index.toNat + j ≤ 0xFFF := hbefore j (Nat.lt_succ_self j)
    have haddr : s.index.toNat + (j + 1) = 0x1000 := by omega
    rw [if_pos (by omega), haddr]
    rfl

theorem FirstOutside.not_inRange {s : State} {n a : Nat} (h : FirstOutside s n a) : ¬ InRange s n := by
  obtain ⟨k, hk, rfl, hout, -⟩ := h
  unfold InRange
  unfold State.indexAddr at hout
  omega

/-- A handler whose only fault is that of an access to n bytes raises MemoryOutOfRange with the first of them that is
outside, and writes the `fault` register only. -/
theorem exec_of_firstOutside {i : Instr} {s : State} {n a : Nat} (hi : faultOf i s = rangeFault s n)
    (h : FirstOutside s n a) :
    ∃ t, exec i s = .next t ∧
      t.fault = some (.memoryOutOfRange (BitVec.ofNat 16 a)) ∧ OnlyChanges [.fault] s t := by
  have hfault : faultOf i s = some (.memoryOutOfRange (BitVec.ofNat 16 a)) := by
    rw [hi, rangeFault_of_not_inRange h.not_inRange, h.ofNat_eq_firstBadAddr]
  exact ⟨_, exec_raises hfault, State.raise_fault s _, onlyChanges_raise s _⟩

/-- The same handler, but for 00EE, has its effect when all n bytes exist. -/
theorem exec_of_inRange {i : Instr} {s : State} {n : Nat} (hi : faultOf i s = rangeFault s n) (hret : i ≠ .op00EE)
    (h : InRange s n) : exec i s = .next (effect i s) :=
  exec_effect (hi.trans (rangeFault_of_inRange h)) fun hs => hret hs.1

/-! ## Block writes -/

theorem onlyChanges_writeBytes (s : State) (a : Nat) (bs : List Byte) : OnlyChanges [.mem] s (s.writeBytes a bs) := by
  intro p hp
  cases p
  case mem => exact absurd (List.mem_singleton.2 rfl) hp
  all_goals simp [SamePart]

theorem bytesKeptOutside_writeBytes (s : State) (a : Nat) (bs : List Byte) :
    BytesKeptOutside a bs.length s (s.writeBytes a bs) :=
  fun b hb => (s.readByte_writeBytes a b bs).trans (if_neg hb)

/-- The k-th byte of a block written at I is read back at I + k. -/
theorem State.readByte_writeBytes_indexAddr (s : State) {bs : List Byte} {k : Nat} (hk : k < bs.length) :
    (s.writeBytes (s.indexAddr 0) bs).readByte (s.indexAddr k) = bs.getD k 0 := by
  unfold State.indexAddr
  rw [State.readByte_writeBytes, if_pos (by omega), Nat.add_zero, Nat.add_sub_cancel_left]

/-! ## The decimal digits (R183) -/

theorem toNat_hundredsDigit (b : Byte) : ((bcdDigits b).getD 0 0).toNat = b.toNat / 100 :=
  toNat_ofNat_eq_of_lt (by omega)

theorem toNat_tensDigit (b : Byte) : ((bcdDigits b).getD 1 0).toNat = b.toNat / 10 % 10 :=
  toNat_ofNat_eq_of_lt (by omega)

theorem toNat_onesDigit (b : Byte) : ((bcdDigits b).getD 2 0).toNat = b.toNat % 10 :=
  toNat_ofNat_eq_of_lt (by omega)

/-- Settles O40: in range, Fx33 is the block write of the three digits at I. -/
theorem storeBcdDigits : Obligations.StoreBcdDigits := by
  intro s x
  refine ⟨fun hrange => ?_, fun a hout => exec_of_firstOutside (i := .opFx33 x) rfl hout⟩
  have hread {k : Nat} (hk : k < 3) :
      (s.writeBytes (s.indexAddr 0) (bcdDigits (s.getV x))).readByte (s.indexAddr k) =
        (bcdDigits (s.getV x)).getD k 0 := s.readByte_writeBytes_indexAddr hk
  refine ⟨_, exec_of_inRange (i := .opFx33 x) rfl nofun hrange, ?hundreds, ?tens, ?ones,
    bytesKeptOutside_writeBytes s _ (bcdDigits (s.getV x)), onlyChanges_writeBytes s _ _⟩
  case hundreds => rw [effect, hread (by decide), toNat_hundredsDigit]
  case tens => rw [effect, hread (by decide), toNat_tensDigit]
  case ones => rw [effect, hread (by decide), toNat_onesDigit]

/-! ## Registers to memory and back (R184, R185, C10) -/

/-- Settles O41: in range, Fx55 is the block write of V0 to Vx at I, and then the advance of I. -/
theorem storeRegistersAdvancesIndex : Obligations.StoreRegistersAdvancesIndex := by
  intro s x
  refine ⟨fun hrange => ?_, fun a hout => exec_of_firstOutside (i := .opFx55 x) rfl hout⟩
  refine ⟨_, exec_of_inRange (i := .opFx55 x) rfl nofun hrange, fun k hk => ?stored, ?advanced, ?kept,
    (onlyChanges_writeBytes s _ _).append (onlyChanges_advanceIndex _ x)⟩
  case stored =>
    have hlt : k.val < (s.regBytes x).length := by rw [State.regBytes_length]; exact Nat.lt_succ_of_le hk
    rw [effect, State.readByte_advanceIndex, s.readByte_writeBytes_indexAddr hlt, s.regBytes_getD x k hk]
  case advanced => exact State.toNat_advanceIndex_index hrange (s.writeBytes_index _ _)
  case kept =>
    have hkept := bytesKeptOutside_writeBytes s (s.indexAddr 0) (s.regBytes x)
    rwa [State.regBytes_length] at hkept

theorem onlyChanges_loadRegs (s : State) (x : Reg) : OnlyChanges [.v] s (s.loadRegs x) := by
  intro p hp
  cases p
  case v => exact absurd (List.mem_singleton.2 rfl) hp
  all_goals simp [SamePart, State.readByte]

/-- Settles O42: in range, Fx65 is the load of V0 to Vx from I on, and then the advance of I. -/
theorem loadRegistersAdvancesIndex : Obligations.LoadRegistersAdvancesIndex := by
  intro s x
  refine ⟨fun hrange => ?_, fun a hout => exec_of_firstOutside (i := .opFx65 x) rfl hout⟩
  refine ⟨_, exec_of_inRange (i := .opFx65 x) rfl nofun hrange, fun k hk => ?loaded, fun k hk => ?kept, ?advanced,
    (onlyChanges_loadRegs s x).append (onlyChanges_advanceIndex _ x)⟩
  case loaded => rw [effect, State.getV_advanceIndex, State.getV_loadRegs, if_pos hk]
  case kept => rw [effect, State.getV_advanceIndex, State.getV_loadRegs, if_neg (not_le.2 hk)]
  case advanced => exact State.toNat_advanceIndex_index hrange (s.loadRegs_index x)

/-- Settles O44: the load reads the addresses that the store wrote, and both advance the same I by x + 1. -/
theorem storeThenLoadRestoresRegisters : Obligations.StoreThenLoadRestoresRegisters := by
  intro s x hrange
  obtain ⟨t, hstore, hstored, htindex, -, -⟩ := (storeRegistersAdvancesIndex s x).1 hrange
  refine ⟨t, hstore, fun u humem huindex => ?_⟩
  have hurange : InRange u (x.val + 1) := by rwa [InRange, huindex]
  obtain ⟨w, hload, hloaded, -, hwindex, -⟩ := (loadRegistersAdvancesIndex u x).1 hurange
  refine ⟨w, hload, fun k hk => ?_, BitVec.eq_of_toNat_eq ?_⟩
  · calc
      w.getV k = u.readByte (u.indexAddr k.val) := hloaded k hk
      _ = t.readByte (s.indexAddr k.val) := by rw [humem, State.indexAddr, huindex, State.indexAddr]
      _ = s.getV k := hstored k hk
  · rw [hwindex, huindex, htindex]

end Sys2Proof.Machine
end

section
/-! O47, O48, O49 (46_random_timer_keypad.md R191 to R196). A key skip raises or writes pc, by whether key Vx exists;
the key wait writes Vx or pc, by whether a key is pressed; and a timer instruction is one write. -/

namespace Sys2Proof.Machine

/-! ## The key skips (R191, R192) -/

theorem State.key_of_toNat_eq (s : State) {b : Byte} {k : Fin 16} (h : b.toNat = k.val) :
    s.key b = some s.keys[k.val] := by
  have hb : b.toNat ≤ 0xF := by omega
  simp only [State.key_eq_some hb, h]

theorem keyFault_of_toNat_eq {b : Byte} {k : Fin 16} (h : b.toNat = k.val) : keyFault b = none :=
  if_neg (by omega)

/-- A handler whose only fault is that of the key operand `b` raises KeyIndexOutOfRange(b) when b is no key, and writes
the `fault` register only. -/
theorem exec_of_no_key {i : Instr} {s : State} {b : Byte} (hi : faultOf i s = keyFault b) (hb : 0xF < b.toNat) :
    ∃ t, exec i s = .next t ∧ t.fault = some (.keyIndexOutOfRange b) ∧ OnlyChanges [.fault] s t :=
  ⟨_, exec_raises (hi.trans (if_pos hb)), State.raise_fault s _, onlyChanges_raise s _⟩

/-- Settles O47: with Vx a key, the effect of each skip is a write to pc by the state of that key. -/
theorem keySkips : Obligations.KeySkips := by
  intro s x
  refine ⟨fun k hk => ?isKey, fun hx => ?noKey⟩
  case isKey =>
    have hfault : keyFault (s.getV x) = none := keyFault_of_toNat_eq hk
    have hkey : s.key (s.getV x) = some s.keys[k.val] := s.key_of_toNat_eq hk
    constructor
    · exact exec_setPc_of_effect (i := .opEx9E x) hfault nofun (by rw [effect, hkey, Option.getD_some])
    · exact exec_setPc_of_effect (i := .opExA1 x) hfault nofun (by rw [effect, hkey, Option.getD_some])
  case noKey => exact ⟨exec_of_no_key (i := .opEx9E x) rfl hx, exec_of_no_key (i := .opExA1 x) rfl hx⟩

/-! ## The key wait (R194) -/

theorem exec_opFx0A_of_firstPressed {s : State} (x : Reg) {k : Reg} (h : s.firstPressed = some k) :
    exec (.opFx0A x) s = .next (s.setV x (BitVec.ofNat 8 k.val)) := by
  show execFx0A x s = _
  rw [execFx0A, h]

theorem exec_opFx0A_of_none_pressed {s : State} (x : Reg) (h : s.firstPressed = none) :
    exec (.opFx0A x) s = .next (s.setPc (s.pc - 2)) := by
  show execFx0A x s = _
  rw [execFx0A, h]

/-- Settles O48: the scan of the keypad finds no key or the least pressed one, and the handler is one write for each. -/
theorem keyWaitPolls : Obligations.KeyWaitPolls := by
  intro s x
  refine ⟨fun hnone => ?polls, fun k hk hleast => ?takesKey⟩
  case polls =>
    have hscan : s.firstPressed = none := State.firstPressed_eq_none.2 hnone
    exact ⟨_, exec_opFx0A_of_none_pressed x hscan, s.setPc_pc _, onlyChanges_setPc s _⟩
  case takesKey =>
    have hscan : s.firstPressed = some k := State.firstPressed_eq_some.2 ⟨hk, hleast⟩
    refine ⟨_, exec_opFx0A_of_firstPressed x hscan, ?_, regsKept_setV s x _, onlyChanges_setV s x _⟩
    rw [State.getV_setV_self, toNat_ofNat_eq_of_lt (by omega)]

/-! ## The timer moves (R193, R195, R196) -/

theorem onlyChanges_dt (s : State) (b : Byte) : OnlyChanges [.dt] s { s with dt := b } := by
  intro p hp
  cases p
  case dt => exact absurd (List.mem_singleton.2 rfl) hp
  case mem => exact fun _ => rfl
  case v => exact fun _ => rfl
  all_goals rfl

theorem onlyChanges_st (s : State) (b : Byte) : OnlyChanges [.st] s { s with st := b } := by
  intro p hp
  cases p
  case st => exact absurd (List.mem_singleton.2 rfl) hp
  case mem => exact fun _ => rfl
  case v => exact fun _ => rfl
  all_goals rfl

/-- Settles O49: each of the three handlers is one write, to Vx, DT or ST. -/
theorem timerMoves : Obligations.TimerMoves := by
  intro s x
  have hread : exec (.opFx07 x) s = .next (s.setV x s.dt) := rfl
  have hdelay : exec (.opFx15 x) s = .next { s with dt := s.getV x } := rfl
  have hsound : exec (.opFx18 x) s = .next { s with st := s.getV x } := rfl
  exact ⟨⟨_, hread, s.getV_setV_self x _, regsKept_setV s x _, onlyChanges_setV s x _⟩,
    ⟨_, hdelay, rfl, onlyChanges_dt s _⟩, ⟨_, hsound, rfl, onlyChanges_st s _⟩⟩

end Sys2Proof.Machine
end

section
/-! O3 (60_exceptions.md R204, 40_cycle_and_dispatch.md R110). A Cycle() on a faulted core ends in the state it began in,
and a run of any machine stays in a state that its step maps to itself. -/

namespace Sys2Proof.Machine

theorem step_of_faulted {s : State} (h : Faulted s) : step s = .next s := by
  have hsome : s.fault.isSome := Option.isSome_iff_ne_none.2 h
  rw [step_eq, if_pos hsome]

/-- A run whose first step succeeds is the run of the remaining steps from the next state. -/
theorem run_succ_of_step_next {M : Host.Core} {s t : M.State} (h : M.step s = .next t) (k : Nat) :
    M.run (k + 1) s = M.run k t := by
  rw [Host.Core.run, h]

theorem run_of_step_fixed {M : Host.Core} {s : M.State} (h : M.step s = .next s) (k : Nat) :
    M.run k s = .next s := by
  induction k with
  | zero => rfl
  | succ k ih => rw [run_succ_of_step_next h, ih]

/-- Settles O3: a faulted state is a fixed point of the step, so a run of any length stays in it. -/
theorem faultedCoreNeverMoves : Obligations.FaultedCoreNeverMoves := by
  intro s k hfaulted
  exact run_of_step_fixed (M := core) (step_of_faulted hfaulted) k

end Sys2Proof.Machine
end

section
/-! O58 (70_reset_and_hazards.md R233, R234). `load_rom` of a ROM that fits is one block write at 0x200, and of a longer
one it is no write at all. -/

namespace Sys2Proof.Machine

theorem loadResult_eq_ok {rom : List Byte} (h : rom.length ≤ 3584) : loadResult rom = .ok :=
  if_neg (Nat.not_lt.2 h)

theorem loadResult_eq_romTooLarge {rom : List Byte} (h : 3584 < rom.length) : loadResult rom = .romTooLarge :=
  if_pos h

theorem State.loadRom_of_fits (s : State) {rom : List Byte} (h : rom.length ≤ 3584) :
    s.loadRom rom = s.writeBytes 0x200 rom := by
  rw [State.loadRom, loadResult_eq_ok h]

theorem State.loadRom_of_too_large (s : State) {rom : List Byte} (h : 3584 < rom.length) : s.loadRom rom = s := by
  rw [State.loadRom, loadResult_eq_romTooLarge h]

/-- The k-th byte of a block written at `a` is read back at `a + k`. -/
theorem State.readByte_writeBytes_of_getElem? (s : State) (a : Nat) {bs : List Byte} {k : Nat} {b : Byte}
    (h : bs[k]? = some b) : (s.writeBytes a bs).readByte (a + k) = b := by
  obtain ⟨hk, -⟩ := List.getElem?_eq_some_iff.1 h
  rw [State.readByte_writeBytes, if_pos (by omega), Nat.add_sub_cancel_left, List.getD_eq_getElem?_getD, h,
    Option.getD_some]

/-- Settles O58: a ROM that fits is written as one block, whose bytes read back and whose frame is memory outside it
and every other element. -/
theorem loadRomCopiesOrRejects : Obligations.LoadRomCopiesOrRejects := by
  intro s rom
  refine ⟨fun hfits => ?copies, fun hlarge => ?rejects⟩
  case copies =>
    rw [s.loadRom_of_fits hfits]
    exact ⟨loadResult_eq_ok hfits, fun _ _ hget => s.readByte_writeBytes_of_getElem? 0x200 hget,
      bytesKeptOutside_writeBytes s 0x200 rom, onlyChanges_writeBytes s 0x200 rom⟩
  case rejects => exact ⟨loadResult_eq_romTooLarge hlarge, s.loadRom_of_too_large hlarge⟩

end Sys2Proof.Machine
end

section
/-! The frame of every handler, said once: which elements of the state, and which registers, the effect of an
instruction may write (40_cycle_and_dispatch.md R116; 10_state.md R22). With `exec_cases` it gives O10 to O17. -/

namespace Sys2Proof.Machine

/-! ## The frames of the writes that no section above names -/

theorem OnlyChanges.mono {ps qs : List Part} {s t : State} (h : OnlyChanges ps s t) (hsub : ps ⊆ qs) :
    OnlyChanges qs s t := fun p hp => h p fun hps => hp (hsub hps)

theorem onlyChanges_keys (s : State) (k : Vector Bool 16) : OnlyChanges [.keys] s { s with keys := k } := by
  intro p hp
  cases p
  case keys => exact absurd (List.mem_singleton.2 rfl) hp
  all_goals simp [SamePart, State.readByte, State.getV]

theorem onlyChanges_opcode (s : State) (w : Word) : OnlyChanges [.opcode] s { s with opcode := w } := by
  intro p hp
  cases p
  case opcode => exact absurd (List.mem_singleton.2 rfl) hp
  all_goals simp [SamePart, State.readByte, State.getV]

theorem onlyChanges_draws (s : State) (n : Nat) : OnlyChanges [.draws] s { s with draws := n } := by
  intro p hp
  cases p
  case draws => exact absurd (List.mem_singleton.2 rfl) hp
  all_goals simp [SamePart, State.readByte, State.getV]

theorem onlyChanges_diag (s : State) (ws : List Word) : OnlyChanges [.diag] s { s with diag := ws } := by
  intro p hp
  cases p
  case diag => exact absurd (List.mem_singleton.2 rfl) hp
  all_goals simp [SamePart, State.readByte, State.getV]

/-! ## The elements an instruction writes -/

/-- The elements of the state that the handler of an instruction may write when it raises nothing. -/
def writtenParts : Instr → List Part
  | .op00E0 => [.fb]
  | .op00EE => [.sp, .pc]
  | .op2nnn _ => [.stack, .sp, .pc]
  | .op1nnn _ | .opBnnn _ | .op3xnn _ _ | .op4xnn _ _ | .op5xy0 _ _ | .op9xy0 _ _ | .opEx9E _ | .opExA1 _ => [.pc]
  | .op6xnn _ _ | .op7xnn _ _ | .op8xy0 _ _ | .op8xy1 _ _ | .op8xy2 _ _ | .op8xy3 _ _ | .op8xy4 _ _
  | .op8xy5 _ _ | .op8xy6 _ _ | .op8xy7 _ _ | .op8xyE _ _ | .opFx07 _ => [.v]
  | .opCxnn _ _ => [.draws, .v]
  | .opDxyn _ _ _ => [.fb, .v]
  | .opFx0A _ => [.v, .pc]
  | .opFx15 _ => [.dt]
  | .opFx18 _ => [.st]
  | .opAnnn _ | .opFx1E _ | .opFx29 _ => [.index]
  | .opFx33 _ => [.mem]
  | .opFx55 _ => [.mem, .index]
  | .opFx65 _ => [.v, .index]
  | .opNOP _ => [.diag]

theorem onlyChanges_effect (i : Instr) (s : State) : OnlyChanges (writtenParts i) s (effect i s) := by
  cases i
  case op00E0 => exact onlyChanges_frame s _
  case op00EE => exact (onlyChanges_sp s _).append (onlyChanges_setPc _ _)
  case op2nnn =>
    exact ((onlyChanges_setStackEntry s _ _).append (onlyChanges_sp _ _)).append (onlyChanges_setPc _ _)
  case op1nnn | opBnnn | op3xnn | op4xnn | op5xy0 | op9xy0 | opEx9E | opExA1 => exact onlyChanges_setPc s _
  case op6xnn | op7xnn | op8xy0 | op8xy1 | op8xy2 | op8xy3 | opFx07 => exact onlyChanges_setV s _ _
  case op8xy4 | op8xy5 | op8xy6 | op8xy7 | op8xyE => exact onlyChanges_setV_setV s _ _ _ _
  case opCxnn => exact (onlyChanges_draws s _).append (onlyChanges_setV _ _ _)
  case opDxyn => exact (onlyChanges_frame s _).append (onlyChanges_setV _ _ _)
  case opFx0A =>
    simp only [effect]
    split
    · exact (onlyChanges_setV s _ _).mono (by simp [writtenParts])
    · exact (onlyChanges_setPc s _).mono (by simp [writtenParts])
  case opFx15 => exact onlyChanges_dt s _
  case opFx18 => exact onlyChanges_st s _
  case opAnnn | opFx1E | opFx29 => exact onlyChanges_setIndex s _
  case opFx33 => exact onlyChanges_writeBytes s _ _
  case opFx55 => exact (onlyChanges_writeBytes s _ _).append (onlyChanges_advanceIndex _ _)
  case opFx65 => exact (onlyChanges_loadRegs s _).append (onlyChanges_advanceIndex _ _)
  case opNOP => exact onlyChanges_diag s _

/-- A handler writes the elements of `writtenParts`, or the `fault` register alone. -/
theorem samePart_of_exec {i : Instr} {s t : State} {p : Part} (h : exec i s = .next t) (hfault : p ≠ .fault)
    (hp : p ∉ writtenParts i) : SamePart s t p := by
  rcases exec_cases h with ⟨c, -, rfl⟩ | ⟨-, -, rfl⟩
  · exact onlyChanges_raise s c p (by simpa using hfault)
  · exact onlyChanges_effect i s p hp

/-! ## The registers an instruction writes (10_state.md R22) -/

/-- The general registers that the handler of an instruction may write: its destinations, and VF as a flag. -/
def writtenRegs (i : Instr) : List Reg := destRegs i ++ if writesFlag i then [15] else []

theorem regsKept_of_samePart {s t : State} (rs : List Reg) (h : SamePart s t .v) : RegsKept rs s t := fun r _ => h r

theorem regsKept_effect (i : Instr) (s : State) : RegsKept (writtenRegs i) s (effect i s) := by
  cases i
  case op6xnn | op7xnn | op8xy0 | op8xy1 | op8xy2 | op8xy3 | opFx07 | opCxnn => exact regsKept_setV _ _ _
  case op8xy4 | op8xy5 | op8xy6 | op8xy7 | op8xyE => exact regsKept_setV_vf_setV s _ _ _
  case opDxyn => exact regsKept_setV _ vf _
  case opFx0A =>
    simp only [effect]
    split
    · exact regsKept_setV s _ _
    · exact fun _ _ => rfl
  case opFx65 x =>
    intro r hr
    have hx : ¬ r ≤ x := by simpa [writtenRegs, destRegs, writesFlag] using hr
    rw [effect, State.getV_advanceIndex, State.getV_loadRegs, if_neg hx]
  all_goals exact regsKept_of_samePart _ (onlyChanges_effect _ s .v (by simp [writtenParts]))

theorem regsKept_of_exec {i : Instr} {s t : State} (h : exec i s = .next t) : RegsKept (writtenRegs i) s t := by
  rcases exec_cases h with ⟨c, -, rfl⟩ | ⟨-, -, rfl⟩
  · exact regsKept_of_samePart _ fun r => s.getV_raise c r
  · exact regsKept_effect i s

/-! ## The obligations on faults and on who writes what -/

/-- Settles O10: a raise records the cause that `faultOf` gives, and an effect keeps the `fault` register empty. -/
theorem handlerFaultCause : Obligations.HandlerFaultCause := by
  intro i s t hs ht
  rcases exec_cases ht with ⟨c, hc, rfl⟩ | ⟨hnone, -, rfl⟩
  · rw [hc, State.raise_fault]
  · rw [hnone, effect_fault, hs]

/-- Settles O11: `writtenRegs` holds a register other than VF only as a destination, and VF else only as a flag. -/
theorem registerWriters : Obligations.RegisterWriters := by
  intro i s t ht
  refine ⟨fun r hr hdest => ?other, fun hdest hflag => ?flag⟩
  case other =>
    refine regsKept_of_exec ht r fun hmem => ?_
    rcases List.mem_append.1 hmem with h | h
    · exact hdest h
    · split at h
      · exact hr (List.mem_singleton.1 h)
      · exact List.not_mem_nil h
  case flag => exact regsKept_of_exec ht 15 (by simp [writtenRegs, hdest, hflag])

/-- Settles O12: I is in `writtenParts` of the five named instructions only. -/
theorem indexWriters : Obligations.IndexWriters := by
  intro i s t ht hload hadd hglyph hstore hfill
  refine samePart_of_exec (p := .index) ht nofun fun hmem => ?_
  cases i <;> simp [writtenParts] at *

/-- Settles O13: pc is in `writtenParts` of the named instructions only. -/
theorem pcWriters : Obligations.PcWriters := by
  intro i s t ht hjump hcall hjumpV0 hreturn h3 h4 h5 h9 hE hA hwait
  refine samePart_of_exec (p := .pc) ht nofun fun hmem => ?_
  cases i <;> simp [writtenParts] at *

/-- Settles O14: the frame for the elements as wholes; and the one entry that a call writes is the entry at sp. -/
theorem stackWriters : Obligations.StackWriters := by
  intro i s t ht
  have hstack (hi : ∀ a, i ≠ .op2nnn a) : t.stack = s.stack := by
    refine samePart_of_exec (p := .stack) ht nofun fun hmem => ?_
    cases i <;> simp [writtenParts] at *
  refine ⟨hstack, fun k hk => ?entry, fun hcall hreturn => ?sp⟩
  case entry =>
    by_cases hi : ∃ a, i = .op2nnn a
    · obtain ⟨a, rfl⟩ := hi
      rcases exec_cases ht with ⟨c, -, rfl⟩ | ⟨-, -, rfl⟩
      · rfl
      · exact (s.getElem_setStackEntry s.sp.toNat s.pc k).trans (if_neg (Ne.symm hk))
    · simp only [hstack fun a ha => hi ⟨a, ha⟩]
  case sp =>
    refine samePart_of_exec (p := .sp) ht nofun fun hmem => ?_
    cases i <;> simp [writtenParts] at *

/-- Settles O15: DT, ST and the framebuffer are in `writtenParts` of the named instructions only. -/
theorem timerAndFramebufferWriters : Obligations.TimerAndFramebufferWriters := by
  intro i s t ht
  refine ⟨fun hdelay => ?dt, fun hsound => ?st, fun hclear hdraw => ?fb⟩
  case dt =>
    refine samePart_of_exec (p := .dt) ht nofun fun hmem => ?_
    cases i <;> simp [writtenParts] at *
  case st =>
    refine samePart_of_exec (p := .st) ht nofun fun hmem => ?_
    cases i <;> simp [writtenParts] at *
  case fb =>
    refine samePart_of_exec (p := .fb) ht nofun fun hmem => ?_
    cases i <;> simp [writtenParts] at *

/-- Settles O16: the frame for memory as a whole; and each of the two stores is a block write at I. -/
theorem memoryWriters : Obligations.MemoryWriters := by
  intro i s t ht
  refine ⟨fun hbcd hstore => ?kept, fun x hi => ?bcd, fun x hi => ?store⟩
  case kept =>
    refine samePart_of_exec (p := .mem) ht nofun fun hmem => ?_
    cases i <;> simp [writtenParts] at *
  case bcd =>
    subst hi
    rcases exec_cases ht with ⟨c, -, rfl⟩ | ⟨-, -, rfl⟩
    · exact fun b _ => s.readByte_raise c b
    · exact bytesKeptOutside_writeBytes s _ (bcdDigits (s.getV x))
  case store =>
    subst hi
    rcases exec_cases ht with ⟨c, -, rfl⟩ | ⟨-, -, rfl⟩
    · exact fun b _ => s.readByte_raise c b
    · have hkept := bytesKeptOutside_writeBytes s (s.indexAddr 0) (s.regBytes x)
      rwa [State.regBytes_length] at hkept

/-- Settles O17: neither the keypad nor `opcode` is in `writtenParts` of any instruction. -/
theorem keypadAndOpcodeKept : Obligations.KeypadAndOpcodeKept := by
  intro i s t ht
  refine ⟨samePart_of_exec (p := .keys) ht nofun ?_, samePart_of_exec (p := .opcode) ht nofun ?_⟩
  all_goals cases i <;> simp [writtenParts]

end Sys2Proof.Machine
end

section
/-! O4 to O8 (10_state.md R26, R38; 42_control_flow.md R143; 60_exceptions.md R201, R214). A handler runs on a state
with the invariant whose pc the fetch has advanced, so that pc is at most 0x1000; from there each element of the
invariant is kept by the few effects that write it. A Cycle() and each action of the host then keep the invariant, and
a run is an induction over its actions. -/

namespace Sys2Proof.Machine

/-! ## Construction (O4, O5) -/

theorem State.faultFits_of_none {s : State} (h : s.fault = none) : FaultInfoFits s := by
  rw [FaultInfoFits, h]; trivial

theorem inv_resetWith (font : FontTable) : Inv (State.resetWith font) where
  memWf := State.wf_resetWith font
  spLegal := by rw [State.resetWith_eq]; exact Nat.zero_le _
  stackBound := by rw [State.resetWith_eq]; simp [State.reset]
  pcBound := by rw [State.resetWith_eq]; exact (show State.reset.pc.toNat ≤ 0x10FE by decide)
  faultFits := State.faultFits_of_none (by rw [State.resetWith_eq]; rfl)

/-- Settles O5: memory is canonical for every FONT, every other element has its reset value, and the default FONT gives
`State.reset`. -/
theorem resetHasInvariant : Obligations.ResetHasInvariant :=
  ⟨State.resetWith_defaultFont ▸ inv_resetWith Config.defaultFont, inv_resetWith⟩

/-- Settles O4: memory by the read of a byte after construction, and every other element as in `State.reset`. -/
theorem resetValues : Obligations.ResetValues := by
  refine ⟨State.resetWith_defaultFont.symm, ?_⟩
  rintro font s rfl
  refine ⟨fun a ha => ?below, fun k => ?font, fun a ha _ => ?above, ?others⟩
  case below => rw [State.readByte_resetWith, if_neg (Nat.not_le.2 ha)]
  case font =>
    rw [State.readByte_resetWith, if_pos (Nat.le_add_right _ _), Nat.add_sub_cancel_left,
      Vector.getElem?_eq_getElem k.isLt, Option.getD_some]
  case above =>
    rw [State.readByte_resetWith, if_pos (by omega), Vector.getElem?_eq_none (by omega), Option.getD_none]
  case others =>
    rw [State.resetWith_eq]
    simp [State.reset, State.getV, State.pixel, Frame.pixel]

/-! ## The info of a raised fault (R201) -/

theorem rangeFault_eq_some {s : State} {n : Nat} {c : Cause} (h : rangeFault s n = some c) :
    c = .memoryOutOfRange (firstBadAddr s) := by
  unfold rangeFault at h
  split at h
  · contradiction
  · exact (Option.some.inj h).symm

theorem keyFault_eq_some {b : Byte} {c : Cause} (h : keyFault b = some c) :
    c = .keyIndexOutOfRange b ∧ 0xF < b.toNat := by
  unfold keyFault at h
  split at h
  next hb => exact ⟨(Option.some.inj h).symm, hb⟩
  next => contradiction

theorem faultInfoFits_raise_of_rangeFault {s : State} {n : Nat} {c : Cause} (h : rangeFault s n = some c) :
    FaultInfoFits (s.raise c) := by
  rw [rangeFault_eq_some h]; rfl

theorem faultInfoFits_raise_of_keyFault {s : State} {x : Reg} {c : Cause} (h : keyFault (s.getV x) = some c) :
    FaultInfoFits (s.raise c) := by
  obtain ⟨rfl, hkey⟩ := keyFault_eq_some h
  exact ⟨hkey, x, s.getV_raise _ x⟩

/-- The info that a handler records fits the state, as sp is at most 16 (R26). -/
theorem faultInfoFits_raise {i : Instr} {s : State} {c : Cause} (hsp : s.sp.toNat ≤ 16) (h : faultOf i s = some c) :
    FaultInfoFits (s.raise c) := by
  cases i
  case op00EE =>
    obtain ⟨hempty, hc⟩ : s.sp = 0 ∧ some .stackUnderflow = some c := by simpa [faultOf] using h
    cases hc
    exact congrArg BitVec.toNat hempty
  case op2nnn =>
    obtain ⟨hfull, hc⟩ : 16 ≤ s.sp.toNat ∧ some .stackOverflow = some c := by simpa [faultOf] using h
    cases hc
    exact le_antisymm hsp hfull
  case opDxyn | opFx33 | opFx55 | opFx65 => exact faultInfoFits_raise_of_rangeFault h
  case opEx9E | opExA1 => exact faultInfoFits_raise_of_keyFault h
  all_goals exact nomatch h

/-- A raise whose info fits keeps the invariant. -/
theorem Inv.raise {s : State} (h : Inv s) {c : Cause} (hc : FaultInfoFits (s.raise c)) : Inv (s.raise c) :=
  ⟨h.memWf, h.spLegal, h.stackBound, h.pcBound, hc⟩

/-! ## The state a handler runs on -/

/-- The invariant after a fetch and its advance: no fault is recorded, and pc is 2 more than an address the fetch
could read. -/
structure Fetching (s : State) : Prop extends Inv s where
  noFault : s.fault = none
  pcLow : 2 ≤ s.pc.toNat
  pcHigh : s.pc.toNat ≤ 0x1000

theorem Inv.fetching_advance {s : State} (h : Inv s) (hfault : s.fault = none) (hpc : s.pc.toNat + 1 ≤ 0xFFF)
    (w : Word) : Fetching (s.advance w) := by
  have hadvanced : (s.advance w).pc.toNat = s.pc.toNat + 2 := BitVec.toNat_add_of_lt (by simp; omega)
  exact
    { memWf := h.memWf
      spLegal := h.spLegal
      stackBound := h.stackBound
      pcBound := by omega
      faultFits := State.faultFits_of_none hfault
      noFault := hfault
      pcLow := by omega
      pcHigh := by omega }

/-! ## What each effect does to the elements of the invariant -/

theorem wf_effect {i : Instr} {s : State} (h : Memory.wf s.mem) (hfault : faultOf i s = none) :
    Memory.wf (effect i s).mem := by
  have hend {n : Nat} (hn : rangeFault s (n + 1) = none) : s.indexAddr 0 + (n + 1) ≤ 4096 := by
    by_contra hout
    exact absurd hn (by rw [rangeFault, if_neg (by unfold State.indexAddr at hout; omega)]; nofun)
  cases i
  case opFx33 x => exact State.wf_writeBytes h (hend hfault)
  case opFx55 x => exact State.wf_writeBytes h ((s.regBytes_length x).symm ▸ hend hfault)
  case opFx65 x => exact (s.loadRegs_mem x).symm ▸ h
  case opFx0A => simp only [effect]; split <;> exact h
  all_goals exact h

theorem spLegal_effect {i : Instr} {s : State} (h : s.sp.toNat ≤ 16) (hfault : faultOf i s = none) :
    (effect i s).sp.toNat ≤ 16 := by
  have kept (hp : .sp ∉ writtenParts i) : (effect i s).sp.toNat ≤ 16 := by
    rwa [show (effect i s).sp = s.sp from onlyChanges_effect i s .sp hp]
  cases i
  case op00EE =>
    have hsp : s.sp ≠ 0 := by simpa [faultOf] using hfault
    show (s.sp - 1).toNat ≤ 16
    bv_omega
  case op2nnn =>
    have hroom : s.sp.toNat < 16 := by simpa [faultOf] using hfault
    show (s.sp + 1).toNat ≤ 16
    bv_omega
  all_goals exact kept (by simp [writtenParts])

theorem stackBound_effect (i : Instr) {s : State} (h : Fetching s) (k : Fin 16) :
    (effect i s).stack[k.val].toNat ≤ 0x1000 := by
  have kept (hp : .stack ∉ writtenParts i) : (effect i s).stack[k.val].toNat ≤ 0x1000 := by
    simp only [show (effect i s).stack = s.stack from onlyChanges_effect i s .stack hp]
    exact h.stackBound k
  cases i
  case op2nnn =>
    refine (congrArg BitVec.toNat (s.getElem_setStackEntry s.sp.toNat s.pc k)).trans_le ?_
    split
    · exact h.pcHigh
    · exact h.stackBound k
  all_goals exact kept (by simp [writtenParts])

/-- The entry a return pops, where there is none read as zero, is a bounded address. -/
theorem stackEntry_getD_le {s : State} (h : ∀ k : Fin 16, s.stack[k.val].toNat ≤ 0x1000) (k : Nat) :
    ((s.stackEntry k).getD 0).toNat ≤ 0x1000 := by
  by_cases hk : k < 16
  · rw [State.stackEntry_eq hk]; exact h ⟨k, hk⟩
  · rw [State.stackEntry_eq_none.2 (Nat.not_lt.1 hk)]; exact Nat.zero_le _

/-- A skip adds 2 to pc or nothing. -/
theorem toNat_skip_le {pc : Word} (h : pc.toNat ≤ 0x1000) (c : Prop) [Decidable c] :
    (if c then pc + 2 else pc).toNat ≤ 0x10FE := by
  split <;> bv_omega

theorem pcBound_effect (i : Instr) {s : State} (h : Fetching s) : (effect i s).pc.toNat ≤ 0x10FE := by
  have hlow := h.pcLow
  have hhigh := h.pcHigh
  have kept (hp : .pc ∉ writtenParts i) : (effect i s).pc.toNat ≤ 0x10FE := by
    rw [show (effect i s).pc = s.pc from onlyChanges_effect i s .pc hp]
    exact h.pcBound
  cases i
  case op00EE => exact (stackEntry_getD_le h.stackBound _).trans (by decide)
  case op1nnn nnn | op2nnn nnn => exact (toNat_zextAddr nnn).trans_le (by omega)
  case opBnnn nnn => exact (toNat_zextAddr_add_zextByte nnn _).trans_le (by omega)
  case op3xnn | op4xnn | op5xy0 | op9xy0 | opEx9E => exact toNat_skip_le hhigh _
  case opExA1 => simp only [effect, State.setPc_pc]; split <;> bv_omega
  case opFx0A =>
    simp only [effect]
    split
    · exact h.pcBound
    · show (s.pc - 2).toNat ≤ 0x10FE
      bv_omega
  all_goals exact kept (by simp [writtenParts])

/-- A handler keeps the invariant. -/
theorem inv_of_exec {i : Instr} {s t : State} (h : Fetching s) (ht : exec i s = .next t) : Inv t := by
  rcases exec_cases ht with ⟨c, hc, rfl⟩ | ⟨hnone, -, rfl⟩
  · exact h.toInv.raise (faultInfoFits_raise h.spLegal hc)
  · exact
      { memWf := wf_effect h.memWf hnone
        spLegal := spLegal_effect h.spLegal hnone
        stackBound := stackBound_effect i h
        pcBound := pcBound_effect i h
        faultFits := State.faultFits_of_none ((effect_fault i s).trans h.noFault) }

/-! ## The step (O6, O7) -/

/-- What a Cycle() can do: nothing on a faulted core, a raise at the fetch, or a handler after the advance. -/
theorem step_cases (s : State) :
    step s = .next s ∨
    (0xFFF ≤ s.pc.toNat ∧ step s = .next (s.raise (.fetchOutOfRange s.pc))) ∨
    (s.fault = none ∧ s.pc.toNat + 1 ≤ 0xFFF ∧ ∃ i w, step s = exec i (s.advance w)) := by
  by_cases hfaulted : Faulted s
  · exact .inl (step_of_faulted hfaulted)
  have hs : s.fault = none := not_not.1 hfaulted
  rcases Nat.lt_or_ge s.pc.toNat 0xFFF with hpc | hpc
  · exact .inr (.inr ⟨hs, hpc, _, _, step_of_fetch hs hpc⟩)
  · exact .inr (.inl ⟨hpc, step_of_fetch_past_memory hs hpc⟩)

/-- Settles O6: by what a Cycle() can do. -/
theorem stepKeepsInvariant : Obligations.StepKeepsInvariant := by
  intro s t h ht
  rcases step_cases s with hstep | ⟨hpc, hstep⟩ | ⟨hs, hpc, i, w, hstep⟩
  · cases hstep.symm.trans ht
    exact h
  · cases hstep.symm.trans ht
    exact h.raise ⟨rfl, hpc⟩
  · exact inv_of_exec (h.fetching_advance hs hpc w) (hstep ▸ ht)

/-- Settles O7: the one stop of the model is a return with sp above 16. -/
theorem stepAlwaysAnswers : Obligations.StepAlwaysAnswers := by
  intro s h
  rcases step_cases s with hstep | ⟨-, hstep⟩ | ⟨-, -, i, w, hstep⟩
  · exact ⟨_, hstep⟩
  · exact ⟨_, hstep⟩
  · rw [hstep]
    exact exec_answers i h.spLegal

/-! ## The actions of the host (O8) -/

theorem inv_construct (font : FontTable) (s : State) : Inv (s.construct font) :=
  have h := inv_resetWith font
  ⟨h.memWf, h.spLegal, h.stackBound, h.pcBound, h.faultFits⟩

theorem Inv.writeBytes {s : State} (h : Inv s) {a : Nat} {bs : List Byte} (hend : a + bs.length ≤ 4096) :
    Inv (s.writeBytes a bs) := by
  have hwf := State.wf_writeBytes h.memWf hend
  rw [State.writeBytes_eq]
  exact ⟨hwf, h.spLegal, h.stackBound, h.pcBound, h.faultFits⟩

theorem Inv.loadRom {s : State} (h : Inv s) (rom : List Byte) : Inv (s.loadRom rom) := by
  by_cases hfits : rom.length ≤ 3584
  · rw [s.loadRom_of_fits hfits]
    exact h.writeBytes (by omega)
  · rw [s.loadRom_of_too_large (Nat.not_le.1 hfits)]
    exact h

theorem Inv.setKeys {s : State} (h : Inv s) (k : Vector Bool 16) : Inv (s.setKeys k) :=
  ⟨h.memWf, h.spLegal, h.stackBound, h.pcBound, h.faultFits⟩

theorem State.tickDt_eq (s : State) : s.tickDt = { s with dt := if s.dt = 0 then s.dt else s.dt - 1 } := by
  unfold State.tickDt
  split <;> rfl

theorem State.tickSt_eq (s : State) : s.tickSt = { s with st := if s.st = 0 then s.st else s.st - 1 } := by
  unfold State.tickSt
  split <;> rfl

theorem Inv.tickDt {s : State} (h : Inv s) : Inv s.tickDt := by
  rw [State.tickDt_eq]
  exact ⟨h.memWf, h.spLegal, h.stackBound, h.pcBound, h.faultFits⟩

theorem Inv.tickSt {s : State} (h : Inv s) : Inv s.tickSt := by
  rw [State.tickSt_eq]
  exact ⟨h.memWf, h.spLegal, h.stackBound, h.pcBound, h.faultFits⟩

/-- The session after one Cycle() of a core with the invariant has it too. -/
theorem Session.cycle_of_inv {z : Session} (h : Inv z.state) :
    ∃ t, z.cycle = .next { z with state := t, phase := .running } ∧ Inv t := by
  obtain ⟨t, ht⟩ := stepAlwaysAnswers z.state h
  exact ⟨t, by rw [Session.cycle, ht], stepKeepsInvariant z.state t h ht⟩

/-- Before the first `reset`, every other action is refused. -/
theorem act_of_unbuilt (font : FontTable) {a : Action} {z : Session} (hz : z.phase = .unbuilt) (ha : a ≠ .reset) :
    act font a z = .refused .notReset := by
  cases a
  case reset => exact absurd rfl ha
  all_goals simp only [act, hz]

/-- Every action but `reset` and `load_rom` is admitted at any time after the first `reset`. -/
theorem act_of_reset (font : FontTable) {z : Session} (hz : z.phase ≠ .unbuilt) :
    act font .cycle z = z.cycle ∧
    act font .tickDt z = .next { z with state := z.state.tickDt } ∧
    act font .tickSt z = .next { z with state := z.state.tickSt } ∧
    ∀ k, act font (.setKeys k) z = .next { z with state := z.state.setKeys k } := by
  cases hphase : z.phase
  case unbuilt => exact absurd hphase hz
  all_goals simp only [act, hphase, implies_true, and_self]

/-- What a run may start from: a session before its first `reset`, or one whose core has the invariant. -/
def SessionOk (z : Session) : Prop := z.phase = .unbuilt ∨ Inv z.state

/-- The core of a session has the invariant. -/
def SessionInv (z : Session) : Prop := Inv z.state

/-- An outcome is a session with `P` or a refusal, and not a fault of the model. -/
def Answers (P : Session → Prop) : Host.Outcome Session Fault Refusal → Prop
  | .next w => P w
  | .fault _ => False
  | .refused _ => True

theorem Answers.mono {P Q : Session → Prop} (hPQ : ∀ z, P z → Q z) {o : Host.Outcome Session Fault Refusal}
    (h : Answers P o) : Answers Q o := by
  cases o
  case next w => exact hPQ w h
  case fault => exact h
  case refused => trivial

theorem Answers.next {P : Session → Prop} {o : Host.Outcome Session Fault Refusal} (h : Answers P o) {w : Session}
    (hw : o = .next w) : P w := by
  subst hw; exact h

theorem Answers.ne_fault {P : Session → Prop} {o : Host.Outcome Session Fault Refusal} (h : Answers P o) (r : Fault) :
    o ≠ .fault r := by
  rintro rfl; exact h

theorem act_loadRom_answers (font : FontTable) (rom : List Byte) {z : Session} (h : Inv z.state) :
    Answers SessionInv (act font (.loadRom rom) z) := by
  cases hz : z.phase <;> simp only [act, hz]
  case built => exact h.loadRom rom
  all_goals trivial

/-- From a session a run may start from, an action is refused or leads to a core with the invariant. -/
theorem act_answers (font : FontTable) (a : Action) {z : Session} (hz : SessionOk z) :
    Answers SessionInv (act font a z) := by
  by_cases hreset : a = .reset
  · subst hreset
    exact inv_construct font z.state
  by_cases hphase : z.phase = .unbuilt
  · rw [act_of_unbuilt font hphase hreset]
    trivial
  have h : Inv z.state := hz.resolve_left hphase
  obtain ⟨hcycle, htickDt, htickSt, hsetKeys⟩ := act_of_reset font hphase
  cases a
  case reset => exact absurd rfl hreset
  case loadRom rom => exact act_loadRom_answers font rom h
  case cycle =>
    obtain ⟨t, ht, hinv⟩ := Session.cycle_of_inv h
    rw [hcycle, ht]
    exact hinv
  case setKeys k => rw [hsetKeys]; exact h.setKeys k
  case tickDt => rw [htickDt]; exact h.tickDt
  case tickSt => rw [htickSt]; exact h.tickSt

/-- What every action keeps, every run keeps. -/
theorem runActions_answers {font : FontTable} {P : Session → Prop} (hact : ∀ a z, P z → Answers P (act font a z))
    (actions : List Action) {z : Session} (hz : P z) : Answers P (runActions font actions z) := by
  induction actions generalizing z with
  | nil => exact hz
  | cons a rest ih =>
    have ha := hact a z hz
    rw [runActions]
    cases hout : act font a z
    case next w => exact ih (ha.next hout)
    case fault r => exact absurd hout (ha.ne_fault r)
    case refused => trivial

/-- Settles O8: every action keeps `SessionOk`, and the invariant once it holds, as it does after a `reset`. -/
theorem hostRunsKeepInvariant : Obligations.HostRunsKeepInvariant := by
  intro font actions z
  have hok (hz : SessionOk z) : Answers SessionOk (runActions font actions z) :=
    runActions_answers (fun a _ h => (act_answers font a h).mono fun _ => Or.inr) actions hz
  have hreset : Answers SessionInv (runActions font (.reset :: actions) z) :=
    runActions_answers (P := SessionInv) (fun a _ h => act_answers font a (.inr h)) actions (inv_construct font z.state)
  exact ⟨fun hz => ⟨fun _ => (hok hz).next, (hok hz).ne_fault⟩, fun _ => hreset.next, hreset.ne_fault⟩

end Sys2Proof.Machine
end

section
/-! O50, O51, O53, O54, O55 (30_encoding.md R81 to R94). The decoder gives a no-op for a key without an entry in its
table, which are the unrecognized words. Every other instruction is decoded from the fields of its format; and a word is
put together again from its fields, but for those that its instruction ignores, which the canonical word fixes. -/

namespace Sys2Proof

/-! ## The no-op (R90) -/

theorem unrecognized_of_category_0 {w : Word} (hop : (opField w).toNat = 0x0) (h0 : (nField w).toNat ≠ 0x0)
    (hE : (nField w).toNat ≠ 0xE) : unrecognized w = true := by
  simp [unrecognized, ← opField_toNat, ← nField_toNat, hop, h0, hE]

theorem unrecognized_of_category_E {w : Word} (hop : (opField w).toNat = 0xE) (h1 : (nField w).toNat ≠ 0x1)
    (hE : (nField w).toNat ≠ 0xE) : unrecognized w = true := by
  simp [unrecognized, ← opField_toNat, ← nField_toNat, hop, h1, hE]

theorem opNOP_eq_iff {w u : Word} (hw : unrecognized w = true) :
    Instr.opNOP w = .opNOP u ↔ u = w ∧ unrecognized w = true :=
  ⟨fun h => ⟨(Instr.opNOP.inj h).symm, hw⟩, fun ⟨h, _⟩ => h ▸ rfl⟩

theorem decodeT0_eq_opNOP_iff {w u : Word} (hop : (opField w).toNat = 0x0) :
    decodeT0 w = .opNOP u ↔ u = w ∧ unrecognized w = true := by
  unfold decodeT0
  split
  case h_3 h0 hE => exact opNOP_eq_iff (unrecognized_of_category_0 hop h0 hE)
  all_goals simp [unrecognized, ← opField_toNat, ← nField_toNat, *]

theorem decodeT8_eq_opNOP_iff {w u : Word} (hop : (opField w).toNat = 0x8) :
    decodeT8 w = .opNOP u ↔ u = w ∧ unrecognized w = true := by
  unfold decodeT8
  split
  case h_10 =>
    simp only [imp_false] at *
    exact opNOP_eq_iff (by simp [unrecognized, ← opField_toNat, ← nField_toNat, hop]; omega)
  all_goals simp [unrecognized, ← opField_toNat, ← nField_toNat, *]

theorem decodeTE_eq_opNOP_iff {w u : Word} (hop : (opField w).toNat = 0xE) :
    decodeTE w = .opNOP u ↔ u = w ∧ unrecognized w = true := by
  unfold decodeTE
  split
  case h_3 h1 hE => exact opNOP_eq_iff (unrecognized_of_category_E hop h1 hE)
  all_goals simp [unrecognized, ← opField_toNat, ← nField_toNat, *]

theorem decodeTF_eq_opNOP_iff {w u : Word} (hop : (opField w).toNat = 0xF) :
    decodeTF w = .opNOP u ↔ u = w ∧ unrecognized w = true := by
  unfold decodeTF
  split
  case h_10 =>
    simp only [imp_false] at *
    exact opNOP_eq_iff (by simp [unrecognized, ← opField_toNat, ← nnField_toNat, hop]; omega)
  all_goals simp [unrecognized, ← opField_toNat, ← nnField_toNat, *]

theorem decodeWord_eq_opNOP_iff {w u : Word} : decodeWord w = .opNOP u ↔ u = w ∧ unrecognized w = true := by
  unfold decodeWord
  split
  case h_1 hop => exact decodeT0_eq_opNOP_iff hop
  case h_9 hop => exact decodeT8_eq_opNOP_iff hop
  case h_15 hop => exact decodeTE_eq_opNOP_iff hop
  case h_16 =>
    simp only [imp_false] at *
    have := (opField w).isLt
    exact decodeTF_eq_opNOP_iff (by omega)
  all_goals simp [unrecognized, ← opField_toNat, *]

theorem wellFormed_decodeWord (w : Word) : WellFormed (decodeWord w) = true := by
  cases hw : decodeWord w
  case opNOP u =>
    obtain ⟨rfl, hu⟩ := decodeWord_eq_opNOP_iff.1 hw
    exact hu
  all_goals rfl

/-- Settles O54: the no-op is decoded from an unrecognized word, which it keeps, and from no other. -/
theorem noOpForUnrecognizedWords : Obligations.NoOpForUnrecognizedWords := by
  intro w
  refine ⟨⟨?_, fun hw => ⟨w, decodeWord_eq_opNOP_iff.2 ⟨rfl, hw⟩⟩⟩, fun u hu => (decodeWord_eq_opNOP_iff.1 hu).1,
    wellFormed_decodeWord w⟩
  rintro ⟨u, hu⟩
  exact (decodeWord_eq_opNOP_iff.1 hu).2

/-! ## Decoding an encoded instruction (R81 to R91) -/

theorem decodeWord_encode {i : Instr} (h : WellFormed i = true) : decodeWord (encode i) = i := by
  cases i
  case opNOP w => exact decodeWord_eq_opNOP_iff.2 ⟨rfl, h⟩
  case op00E0 | op00EE => rfl
  case op1nnn | op2nnn | opAnnn | opBnnn => simp [encode, decodeWord]
  case op3xnn | op4xnn | op6xnn | op7xnn | opCxnn => simp [encode, decodeWord]
  case op5xy0 | op9xy0 | opDxyn => simp [encode, decodeWord]
  case op8xy0 | op8xy1 | op8xy2 | op8xy3 | op8xy4 | op8xy5 | op8xy6 | op8xy7 | op8xyE =>
    simp [encode, decodeWord, decodeT8]
  case opEx9E | opExA1 => simp [encode, decodeWord, decodeTE]
  case opFx07 | opFx0A | opFx15 | opFx18 | opFx1E | opFx29 | opFx33 | opFx55 | opFx65 =>
    simp [encode, decodeWord, decodeTF]

theorem wordOfBytes_extractLsb' (w : Word) : wordOfBytes (w.extractLsb' 8 8) (w.extractLsb' 0 8) = w := by
  apply BitVec.eq_of_getLsbD_eq
  intro k hk
  rw [wordOfBytes, BitVec.getLsbD_append, BitVec.getLsbD_extractLsb', BitVec.getLsbD_extractLsb']
  by_cases hlow : k < 8
  · simp [hlow]
  · have hhigh : 8 + (k - 8) = k := by omega
    simp [hlow, hhigh]; omega

theorem decode_encodeBytes_append (i : Instr) (rest : List Byte) :
    decode (encodeBytes i ++ rest) = .ok (decodeWord (encode i), rest) := by
  simp only [encodeBytes, List.cons_append, List.nil_append, decode, wordOfBytes_extractLsb']

/-- Settles O50: the decoder reads back the fields that the format of the instruction put together. -/
theorem decodeEncodeRoundTrip : Obligations.DecodeEncodeRoundTrip := by
  intro i h
  have hword := decodeWord_encode h
  refine ⟨hword, fun rest => ?_⟩
  rw [decode_encodeBytes_append, hword]

/-! ## Encoding a decoded word (R91) -/

section fields

variable {w : Word} {op n : Nat}

theorem formatA_of_opField (hop : (opField w).toNat = op) : formatA (BitVec.ofNat 4 op) (nnnField w) = w := by
  subst hop
  simpa using formatA_fields w

theorem formatXB_of_opField (hop : (opField w).toNat = op) :
    formatXB (BitVec.ofNat 4 op) (xField w) (nnField w) = w := by
  subst hop
  simpa using formatXB_fields w

theorem formatXY_of_opField (hop : (opField w).toNat = op) :
    formatXY (BitVec.ofNat 4 op) (xField w) (yField w) (nField w) = w := by
  subst hop
  simpa using formatXY_fields w

theorem formatXY_of_nField (hop : (opField w).toNat = op) (hn : (nField w).toNat = n) :
    formatXY (BitVec.ofNat 4 op) (xField w) (yField w) (BitVec.ofNat 4 n) = w := by
  subst hn
  simpa using formatXY_of_opField hop

theorem formatXB_of_nnField {nn : Nat} (hop : (opField w).toNat = op) (hnn : (nnField w).toNat = nn) :
    formatXB (BitVec.ofNat 4 op) (xField w) (BitVec.ofNat 8 nn) = w := by
  subst hnn
  simpa using formatXB_of_opField hop

end fields

/-! ### The canonical spelling of the ignored bits -/

/-- The last nibble is ignored: categories 5 and 9. -/
theorem formatXY_ignoring_n (op : Nibble) (x y : Reg) (n : Nibble) :
    formatXY op x y n &&& 0xFFF0 = formatXY op x y 0 := by
  show (op ++ (regBits x ++ (regBits y ++ n : Byte) : BitVec 12) : Word) &&&
    (0xF#4 ++ (0xF#4 ++ (0xF#4 ++ 0#4 : Byte) : BitVec 12) : Word) = _
  rw [BitVec.and_append, BitVec.and_append, BitVec.and_append, show (0xF#4 : Nibble) = BitVec.allOnes 4 from rfl,
    BitVec.and_allOnes, BitVec.and_allOnes, BitVec.and_allOnes, BitVec.and_zero]
  rfl

/-- The third nibble is ignored: category E. -/
theorem formatXY_ignoring_y (op : Nibble) (x y : Reg) (n m : Nibble) :
    (formatXY op x y n &&& 0xFF0F) ||| (0#4 ++ (0#4 ++ (m ++ 0#4 : Byte) : BitVec 12) : Word) =
      formatXB op x (m ++ n) := by
  show ((op ++ (regBits x ++ (regBits y ++ n : Byte) : BitVec 12) : Word) &&&
    (0xF#4 ++ (0xF#4 ++ (0#4 ++ 0xF#4 : Byte) : BitVec 12) : Word)) ||| _ = _
  rw [BitVec.and_append, BitVec.and_append, BitVec.and_append, BitVec.or_append, BitVec.or_append, BitVec.or_append,
    show (0xF#4 : Nibble) = BitVec.allOnes 4 from rfl,
    BitVec.and_allOnes, BitVec.and_allOnes, BitVec.and_allOnes, BitVec.and_zero, BitVec.or_zero, BitVec.or_zero,
    BitVec.or_zero, BitVec.zero_or]
  rfl

/-- Only categories 0, 5, 9 and E have ignored bits. -/
theorem canonicalWord_of_category {w : Word} (hop : (opField w).toNat ∉ [0x0, 0x5, 0x9, 0xE]) :
    canonicalWord w = w := by
  unfold canonicalWord
  split <;> simp_all

/-- An unrecognized word has none. -/
theorem canonicalWord_of_unrecognized {w : Word} (h : unrecognized w = true) : canonicalWord w = w := by
  unfold canonicalWord
  split
  case h_7 => rfl
  all_goals simp [unrecognized, ← opField_toNat, ← nField_toNat, *] at h

theorem encode_decodeT0 {w : Word} (hop : (opField w).toNat = 0x0) : encode (decodeT0 w) = canonicalWord w := by
  unfold decodeT0
  split
  case h_1 hn | h_2 hn => simp only [encode, canonicalWord, hop, hn]
  case h_3 h0 hE => exact (canonicalWord_of_unrecognized (unrecognized_of_category_0 hop h0 hE)).symm

theorem encode_decodeT8 {w : Word} (hop : (opField w).toNat = 0x8) : encode (decodeT8 w) = canonicalWord w := by
  rw [canonicalWord_of_category (by simp [hop])]
  unfold decodeT8
  split
  case h_10 => rfl
  all_goals exact formatXY_of_nField hop ‹_›

theorem encode_decodeTE {w : Word} (hop : (opField w).toNat = 0xE) : encode (decodeTE w) = canonicalWord w := by
  unfold decodeTE
  split
  case h_1 hn =>
    calc
      formatXB 0xE (xField w) (0xA#4 ++ 0x1#4) = (formatXY 0xE (xField w) (yField w) 0x1 &&& 0xFF0F) ||| 0x00A0 :=
        (formatXY_ignoring_y 0xE (xField w) (yField w) 0x1 0xA).symm
      _ = (w &&& 0xFF0F) ||| 0x00A0 := congrArg (· &&& 0xFF0F ||| 0x00A0) (formatXY_of_nField hop hn)
      _ = canonicalWord w := by simp only [canonicalWord, hop, hn]
  case h_2 hn =>
    calc
      formatXB 0xE (xField w) (0x9#4 ++ 0xE#4) = (formatXY 0xE (xField w) (yField w) 0xE &&& 0xFF0F) ||| 0x0090 :=
        (formatXY_ignoring_y 0xE (xField w) (yField w) 0xE 0x9).symm
      _ = (w &&& 0xFF0F) ||| 0x0090 := congrArg (· &&& 0xFF0F ||| 0x0090) (formatXY_of_nField hop hn)
      _ = canonicalWord w := by simp only [canonicalWord, hop, hn]
  case h_3 h1 hE => exact (canonicalWord_of_unrecognized (unrecognized_of_category_E hop h1 hE)).symm

theorem encode_decodeTF {w : Word} (hop : (opField w).toNat = 0xF) : encode (decodeTF w) = canonicalWord w := by
  rw [canonicalWord_of_category (by simp [hop])]
  unfold decodeTF
  split
  case h_10 => rfl
  all_goals exact formatXB_of_nnField hop ‹_›

/-- The encoding of a decoded word puts its fields together again, by the first level (R84, R89). -/
theorem encode_decodeWord (w : Word) : encode (decodeWord w) = canonicalWord w := by
  unfold decodeWord
  split
  case h_1 hop => exact encode_decodeT0 hop
  case h_9 hop => exact encode_decodeT8 hop
  case h_15 hop => exact encode_decodeTE hop
  case h_16 =>
    simp only [imp_false] at *
    have := (opField w).isLt
    exact encode_decodeTF (by omega)
  case h_2 hop | h_3 hop | h_11 hop | h_12 hop =>
    exact (formatA_of_opField hop).trans (canonicalWord_of_category (by simp [hop])).symm
  case h_4 hop | h_5 hop | h_7 hop | h_8 hop | h_13 hop =>
    exact (formatXB_of_opField hop).trans (canonicalWord_of_category (by simp [hop])).symm
  case h_14 hop => exact (formatXY_of_opField hop).trans (canonicalWord_of_category (by simp [hop])).symm
  case h_6 hop | h_10 hop =>
    simp only [canonicalWord, hop]
    conv_rhs => rw [← formatXY_of_opField hop, formatXY_ignoring_n]
    rfl

/-- Settles O51: the canonical word is the encoding of the decoded instruction, which is well-formed and so decodes
back. -/
theorem encodeGivesCanonicalWord : Obligations.EncodeGivesCanonicalWord := by
  intro w
  have hencode := encode_decodeWord w
  exact ⟨hencode, hencode ▸ decodeWord_encode (wellFormed_decodeWord w)⟩

/-! ## The opcode map and written words (R94) -/

/-- Settles O53: two rows that one word selects agree on the bits under both masks. -/
theorem opcodeRowsDisjoint : Obligations.OpcodeRowsDisjoint := fun _ _ _ hq hr hwq hwr => selects_unique hq hr hwq hwr

/-- Settles O55: each pair of bytes is decoded by evaluation, and one byte is too few. -/
theorem writtenWordsDecode : Obligations.WrittenWordsDecode := by
  refine ⟨?_, ?_, ?_, ?_, ?_, ?_, ?_, ?_, ?_, ?_⟩ <;> rfl

end Sys2Proof
end

section
/-! O18, O19 (10_state.md R28, R31, R40). What a handler answers is given by `faultOf`, `stops` and `effect`; so an
update of the state that commutes with these commutes with the handler. An update of `opcode`, ST and the counter of the
draws does, unless the instruction is the one that reads or writes the element it changes. -/

namespace Sys2Proof.Machine

/-- An update that no fault and no stop of `i` sees, and that commutes with its effect, commutes with the handler. -/
theorem exec_of_commutes {i : Instr} {s : State} {f : State → State} (hfault : faultOf i (f s) = faultOf i s)
    (hsp : (f s).sp = s.sp) (hraise : ∀ c, (f s).raise c = f (s.raise c)) (heffect : effect i (f s) = f (effect i s)) :
    exec i (f s) = mapNext f (exec i s) := by
  cases hs : faultOf i s with
  | some c => rw [exec_raises hs, exec_raises (hfault.trans hs), hraise, mapNext]
  | none =>
    by_cases hstop : stops i s
    · have hstop' : stops i (f s) := ⟨hstop.1, hsp ▸ hstop.2⟩
      rw [exec_stops hstop, exec_stops hstop', mapNext]
    · have hstop' : ¬ stops i (f s) := fun h => hstop ⟨h.1, hsp ▸ h.2⟩
      rw [exec_effect hs hstop, exec_effect (hfault.trans hs) hstop', heffect, mapNext]

/-- An update of the three elements that hardly any instruction reads: `opcode`, ST and the counter of the draws. -/
def State.mapUnread (fo : Word → Word) (ft : Byte → Byte) (fd : Nat → Nat) (s : State) : State :=
  { s with opcode := fo s.opcode, st := ft s.st, draws := fd s.draws }

section mapUnread

variable (fo : Word → Word) (ft : Byte → Byte) (fd : Nat → Nat) (s : State)

theorem faultOf_mapUnread (i : Instr) : faultOf i (s.mapUnread fo ft fd) = faultOf i s := by cases i <;> rfl

theorem State.writeBytes_mapUnread (a : Nat) (bs : List Byte) :
    (s.mapUnread fo ft fd).writeBytes a bs = (s.writeBytes a bs).mapUnread fo ft fd := by
  induction bs generalizing s a with
  | nil => rfl
  | cons b bs ih => exact ih (s.writeByte a b) (a + 1)

theorem foldl_setV_mapUnread (g : Reg → Byte) (ks : List Reg) :
    ks.foldl (fun t k => t.setV k (g k)) (s.mapUnread fo ft fd) =
      (ks.foldl (fun t k => t.setV k (g k)) s).mapUnread fo ft fd := by
  induction ks generalizing s with
  | nil => rfl
  | cons k ks ih => exact ih (s.setV k (g k))

theorem State.loadRegs_mapUnread (x : Reg) :
    (s.mapUnread fo ft fd).loadRegs x = (s.loadRegs x).mapUnread fo ft fd :=
  foldl_setV_mapUnread fo ft fd s (fun k => s.readByte (s.indexAddr k.val)) (regsUpTo x)

/-- The update commutes with every effect but those of the no-op, Fx18 and Cxnn, which need the element they use
kept. -/
theorem effect_mapUnread (i : Instr) (hnop : ∀ w, i = .opNOP w → fo = id) (hsound : ∀ x, i = .opFx18 x → ft = id)
    (hrandom : ∀ x nn, i = .opCxnn x nn → fd = id) :
    effect i (s.mapUnread fo ft fd) = (effect i s).mapUnread fo ft fd := by
  cases i
  case opNOP w => rw [hnop w rfl]; rfl
  case opFx18 x => rw [hsound x rfl]; rfl
  case opCxnn x nn => rw [hrandom x nn rfl]; rfl
  case opFx33 x => exact s.writeBytes_mapUnread fo ft fd (s.indexAddr 0) (bcdDigits (s.getV x))
  case opFx55 x =>
    exact congrArg (State.advanceIndex · x) (s.writeBytes_mapUnread fo ft fd (s.indexAddr 0) (s.regBytes x))
  case opFx65 x => exact congrArg (State.advanceIndex · x) (s.loadRegs_mapUnread fo ft fd x)
  case opFx0A x =>
    have hscan : (s.mapUnread fo ft fd).firstPressed = s.firstPressed := rfl
    simp only [effect, hscan]
    cases s.firstPressed <;> rfl
  all_goals rfl

theorem exec_mapUnread (i : Instr) (hnop : ∀ w, i = .opNOP w → fo = id) (hsound : ∀ x, i = .opFx18 x → ft = id)
    (hrandom : ∀ x nn, i = .opCxnn x nn → fd = id) :
    exec i (s.mapUnread fo ft fd) = mapNext (State.mapUnread fo ft fd) (exec i s) :=
  exec_of_commutes (faultOf_mapUnread fo ft fd s i) rfl (fun _ => rfl)
    (effect_mapUnread fo ft fd s i hnop hsound hrandom)

end mapUnread

/-- Settles O18: a constant put into `opcode` or ST is an update by `mapUnread` that keeps the other elements; and Fx18
overwrites ST. -/
theorem opcodeAndSoundTimerNeverRead : Obligations.OpcodeAndSoundTimerNeverRead := by
  intro i s w b
  refine ⟨fun hnop => ?opcode, fun hsound => ?soundTimer, fun x hi => ?overwritten⟩
  case opcode =>
    exact exec_mapUnread (fun _ => w) id id s i (fun u hu => absurd hu (hnop u)) (fun _ _ => rfl) (fun _ _ _ => rfl)
  case soundTimer =>
    exact exec_mapUnread id (fun _ => b) id s i (fun _ _ => rfl) (fun x hx => absurd hx (hsound x)) (fun _ _ _ => rfl)
  case overwritten => subst hi; rfl

/-- Settles O19: a constant put into the counter of the draws is an update by `mapUnread`. -/
theorem randomInputOnlyInCxnn : Obligations.RandomInputOnlyInCxnn := by
  intro i s k hrandom
  exact exec_mapUnread id id (fun _ => k) s i (fun _ _ => rfl) (fun _ _ => rfl)
    (fun x nn hx => absurd hx (hrandom x nn))

end Sys2Proof.Machine
end

section
/-! O21, O22, O23 (41_display.md R131, 90_conflicts.md C9). In range, the effect of Dxyn is what `State.plotSprite` does
to the screen and to a cleared VF. A second draw has the same sprite at the same place, so it flips the same pixels back,
and it finds on exactly those that the first draw turned on. -/

namespace Sys2Proof.Machine

/-- The pixels that `State.plotSprite` flips are the bits of the sprite as the claims name them. -/
theorem spriteBit_eq_blockBit (s : State) (x y : Reg) (n : Nibble) (c r : Nat) :
    spriteBit s x y n c r = s.blockBit (s.startCol x) (s.startRow y) n.toNat c r := rfl

theorem vf_opDxyn (s : State) (x y : Reg) (n : Nibble) :
    (effect (.opDxyn x y n) s).getV 15 =
      (s.plotSprite (s.fb, 0) (s.startCol x) (s.startRow y) n.toNat).2 := State.getV_setV_self _ vf _

/-- Settles O21: the laws of `State.plotSprite`, from the framebuffer and VF = 0. -/
theorem drawXorsVisiblePixels : Obligations.DrawXorsVisiblePixels := by
  intro s x y n hrange
  have hvf := s.vf_plotSprite (s.fb, 0) (s.startCol x) (s.startRow y) n.toNat
  refine ⟨_, exec_of_inRange (i := .opDxyn x y n) rfl nofun hrange, fun c r hc hr => ?pixels, fun hhit => ?hit,
    fun hmiss => ?miss, regsKept_effect (.opDxyn x y n) s, onlyChanges_effect (.opDxyn x y n) s⟩
  case pixels =>
    rw [spriteBit_eq_blockBit]
    exact s.pixel_plotSprite (s.fb, 0) (s.startCol x) (s.startRow y) n.toNat hc hr
  case hit => exact (vf_opDxyn s x y n).trans (hvf.1 hhit)
  case miss => exact (vf_opDxyn s x y n).trans (hvf.2 hmiss)

/-- A state with the same memory, I and place has the same sprite. -/
theorem spriteBit_congr {s t : State} {x y : Reg} (hmem : ∀ a, t.readByte a = s.readByte a) (hindex : t.index = s.index)
    (hx : t.getV x = s.getV x) (hy : t.getV y = s.getV y) (n : Nibble) (c r : Nat) :
    spriteBit t x y n c r = spriteBit s x y n c r := by
  have hcol : t.startCol x = s.startCol x := by rw [State.startCol, State.startCol, hx]
  have hrow : t.startRow y = s.startRow y := by rw [State.startRow, State.startRow, hy]
  have haddr (k : Nat) : t.indexAddr k = s.indexAddr k := by rw [State.indexAddr, State.indexAddr, hindex]
  rw [spriteBit, spriteBit, hcol, hrow, haddr, hmem]

/-- Settles O22: the second draw flips the same pixels, and collides where the first one left a pixel on. -/
theorem drawTwiceRestoresScreen : Obligations.DrawTwiceRestoresScreen := by
  intro s x y n hx hy hrange
  obtain ⟨t, hdraw, hpixel, -, -, hregs, hframe⟩ := drawXorsVisiblePixels s x y n hrange
  have hindex : t.index = s.index := hframe .index (by simp)
  have hsprite : ∀ c r, spriteBit t x y n c r = spriteBit s x y n c r :=
    spriteBit_congr (hframe .mem (by simp)) hindex (hregs x (by simpa using hx)) (hregs y (by simpa using hy)) n
  obtain ⟨u, hredraw, hpixel', hhit, hmiss, -, -⟩ := drawXorsVisiblePixels t x y n (by rwa [InRange, hindex])
  refine ⟨t, u, hdraw, hredraw, fun c r hc hr => ?_, ?_⟩
  · rw [hpixel' c r hc hr, hpixel c r hc hr, hsprite, Bool.xor_assoc, Bool.xor_self, Bool.xor_false]
  · have hvf : u.getV 15 = 1 ↔ spriteCollides t x y n := by
      refine ⟨fun h => ?_, hhit⟩
      by_contra hno
      exact absurd ((hmiss hno).symm.trans h) (by decide)
    have hon {c r : Nat} (hc : c < 64) (hr : r < 32) :
        spriteBit t x y n c r = true ∧ t.pixel c r = true ↔ spriteBit s x y n c r = true ∧ s.pixel c r = false := by
      rw [hsprite, hpixel c r hc hr]
      cases spriteBit s x y n c r <;> simp
    rw [hvf]
    constructor
    · rintro ⟨c, r, hc, hr, h⟩
      exact ⟨c, r, hc, hr, (hon hc hr).1 h⟩
    · rintro ⟨c, r, hc, hr, h⟩
      exact ⟨c, r, hc, hr, (hon hc hr).2 h⟩

/-- A screen with every pixel on, and I at the glyph 0 of the default FONT, whose first row is 0xF0. -/
def litScreen : State := { State.reset with index := 0x050, fb := Vector.replicate 32 (BitVec.allOnes 64) }

theorem litScreen_pixel {c r : Nat} (hc : c < 64) (hr : r < 32) : litScreen.pixel c r = true := by
  have hrow : litScreen.fb[r] = BitVec.allOnes 64 := Vector.getElem_replicate hr
  rw [State.pixel, Frame.pixel, dif_pos hr, hrow, BitVec.getLsbD_allOnes, decide_eq_true hc]

theorem litScreen_spriteVisible : spriteVisible litScreen 0 0 1 := ⟨0, 0, by decide, by decide, by decide⟩

/-- Refutes O23: on the screen with every pixel on, the first draw of one row turns four pixels off, and the second one
turns them on again without a collision. -/
theorem not_secondDrawCollidesWheneverVisible : ¬ Obligations.SecondDrawCollidesWheneverVisible := by
  intro h
  have hrange : InRange litScreen (1 : Nibble).toNat := .inr (by decide)
  obtain ⟨t, u, hdraw, hredraw, -, hvf⟩ := drawTwiceRestoresScreen litScreen 0 0 1 (by decide) (by decide) hrange
  have hone := (h litScreen t u 0 0 1 (by decide) (by decide) hrange hdraw hredraw).2 litScreen_spriteVisible
  obtain ⟨c, r, hc, hr, -, hoff⟩ := hvf.1 hone
  exact absurd (hoff.symm.trans (litScreen_pixel hc hr)) nofun

end Sys2Proof.Machine
end

section
/-! O43, O45 (20_memory.md R64, R73; 60_exceptions.md R201). An access that is not in range raises whatever its
instruction; and a fetch reads the bytes at pc and pc + 1, so it sees what a block write put there. -/

namespace Sys2Proof.Machine

/-- A handler whose only fault is that of an access to n bytes raises MemoryOutOfRange when they do not all exist, and
writes the `fault` register only. -/
theorem exec_of_not_inRange {i : Instr} {s : State} {n : Nat} (hi : faultOf i s = rangeFault s n) (h : ¬ InRange s n) :
    ∃ t, exec i s = .next t ∧ t.fault = some (.memoryOutOfRange (firstBadAddr s)) ∧ OnlyChanges [.fault] s t :=
  ⟨_, exec_raises (hi.trans (rangeFault_of_not_inRange h)), State.raise_fault s _, onlyChanges_raise s _⟩

/-- Settles O43: each of the four instructions accesses bytes from I on, and does not find them all. -/
theorem outOfRangeAccessRaises : Obligations.OutOfRangeAccessRaises := by
  rintro s x y n a rfl
  have hout {k : Nat} (hk : k ≠ 0) (hend : 0x1000 < s.index.toNat + k) : ¬ InRange s k :=
    not_or.2 ⟨hk, Nat.not_le.2 hend⟩
  refine ⟨fun hn hend => ?draw, fun hend => ?bcd, fun hend => ⟨?store, ?load⟩⟩
  case draw =>
    have hrows : n.toNat ≠ 0 := fun h => hn (BitVec.eq_of_toNat_eq h)
    exact exec_of_not_inRange (i := .opDxyn x y n) rfl (hout hrows hend)
  case bcd => exact exec_of_not_inRange (i := .opFx33 x) rfl (hout (by decide) hend)
  case store => exact exec_of_not_inRange (i := .opFx55 x) rfl (hout (Nat.succ_ne_zero _) hend)
  case load => exact exec_of_not_inRange (i := .opFx65 x) rfl (hout (Nat.succ_ne_zero _) hend)

/-- A fetch in range sees the byte at pc as its high byte and the byte at pc + 1 as its low byte. -/
theorem fetchWord_sees_bytes {u : State} (hpc : u.pc.toNat + 1 ≤ 0xFFF) :
    ∃ w, u.fetchWord = some w ∧ ∀ a,
      (u.pc.toNat = a → w.extractLsb' 8 8 = u.readByte a) ∧
      (u.pc.toNat + 1 = a → w.extractLsb' 0 8 = u.readByte a) := by
  refine ⟨_, State.fetchWord_eq_some hpc, fun a => ⟨?_, ?_⟩⟩
  · rintro rfl; exact word_high _ _
  · rintro rfl; exact word_low _ _

/-- Settles O45: the stored bytes are read back from the state of the store, and the fetch reads the same memory. -/
theorem storedBytesAreFetched : Obligations.StoredBytesAreFetched := by
  intro s x
  refine ⟨fun hrange => ?store, fun hrange => ?bcd⟩
  case store =>
    obtain ⟨t, hstore, hstored, -⟩ := (storeRegistersAdvancesIndex s x).1 hrange
    refine ⟨t, hstore, fun u hmem hpc => ?_⟩
    obtain ⟨w, hfetch, hsees⟩ := fetchWord_sees_bytes hpc
    refine ⟨w, hfetch, fun k hk => ?_⟩
    rw [← hstored k hk, ← hmem]
    exact hsees (s.indexAddr k.val)
  case bcd =>
    refine ⟨_, exec_of_inRange (i := .opFx33 x) rfl nofun hrange, fun u hmem hpc => ?_⟩
    obtain ⟨w, hfetch, hsees⟩ := fetchWord_sees_bytes hpc
    refine ⟨w, hfetch, fun k b hdigit => ?_⟩
    have hstored : (effect (.opFx33 x) s).readByte (s.indexAddr k) = b :=
      s.readByte_writeBytes_of_getElem? (s.indexAddr 0) hdigit
    rw [← hstored, ← hmem]
    exact hsees (s.indexAddr k)

end Sys2Proof.Machine
end

section
/-! O25, O29, O46 (log 4; 40_cycle_and_dispatch.md R115; 46_random_timer_keypad.md R190): the stop of a return, the
no-op, and the random byte. -/

namespace Sys2Proof.Machine

/-- Settles O25: this is the stop that `stops` names. -/
theorem returnBeyondStackStops : Obligations.ReturnBeyondStackStops := fun _ h => exec_stops ⟨rfl, h⟩

/-- Settles O29: the effect of the no-op is one write to the list of events. -/
theorem noOpOnlyEmitsDiagnostic : Obligations.NoOpOnlyEmitsDiagnostic := by
  intro s word
  have hexec : exec (.opNOP word) s = .next { s with diag := s.diag ++ [s.opcode] } := rfl
  exact ⟨_, hexec, rfl, onlyChanges_diag s _⟩

/-- Settles O46: Cxnn advances the counter of the draws and writes the masked byte to Vx. -/
theorem randomByteIsMasked : Obligations.RandomByteIsMasked := by
  intro s x nn
  have hexec : exec (.opCxnn x nn) s =
      .next ({ s with draws := s.draws + 1 }.setV x (Config.rand s.draws &&& nn)) := rfl
  refine ⟨_, hexec, State.getV_setV_self _ x _, fun k hk => ?subset, rfl, regsKept_effect (.opCxnn x nn) s,
    (onlyChanges_effect (.opCxnn x nn) s).mono (by simp [writtenParts])⟩
  case subset =>
    rw [State.getV_setV_self, BitVec.getLsbD_and, Bool.and_eq_true] at hk
    exact hk.2

end Sys2Proof.Machine
end

section
/-! O56, O57, O59, O60 (60_exceptions.md R211 to R214; 70_reset_and_hazards.md R230, R235, R236): what each action of
the host does after `reset` and when it is admitted, and the two states in which a Cycle() changes `opcode` only. -/

namespace Sys2Proof.Machine

/-- Settles O56: a `reset` is the construction, with the counter of the draws and the events put back. -/
theorem hostResetConstructs : Obligations.HostResetConstructs := by
  intro font z
  have hframe : OnlyChanges [.draws, .diag] (State.resetWith font) (z.state.construct font) :=
    (onlyChanges_draws (State.resetWith font) z.state.draws).append (onlyChanges_diag _ z.state.diag)
  exact ⟨_, rfl, hframe, rfl, rfl, rfl⟩

/-- Settles O57: by the phase of the session. -/
theorem hostActionOrder : Obligations.HostActionOrder := by
  intro font z a b
  refine ⟨act_of_unbuilt font, fun hz => ?built, fun hz => ?usedUp, fun hz t ht => ?cycle⟩
  case built => simp only [act, hz]
  case usedUp => rcases hz with hz | hz <;> simp only [act, hz]
  case cycle =>
    obtain ⟨hcycle, -, -, -⟩ := act_of_reset font hz
    rw [hcycle, Session.cycle, ht]

/-! ## Ticks and keypad writes (R211, R212) -/

/-- A timer that a tick took 1 from, unless it was zero, is one less by the subtraction of natural numbers. -/
theorem toNat_ticked (b : Byte) : (if b = 0 then b else b - 1).toNat = b.toNat - 1 := by
  split <;> bv_omega

/-- Settles O59: after `reset` each of the three actions is its one write. -/
theorem ticksAndKeyWrites : Obligations.TicksAndKeyWrites := by
  intro font z k hz
  obtain ⟨-, htickDt, htickSt, hsetKeys⟩ := act_of_reset font hz
  rw [State.tickDt_eq] at htickDt
  rw [State.tickSt_eq] at htickSt
  exact ⟨⟨_, htickDt, toNat_ticked _, rfl, onlyChanges_dt z.state _⟩,
    ⟨_, htickSt, toNat_ticked _, rfl, onlyChanges_st z.state _⟩,
    ⟨_, hsetKeys k, rfl, rfl, onlyChanges_keys z.state k⟩⟩

/-! ## The states in which a run ends (R236) -/

theorem State.nextInstr_eq_some {s : State} {i : Instr} :
    s.nextInstr = some i ↔ ∃ w, s.fetchWord = some w ∧ decodeWord w = i := Option.map_eq_some_iff

theorem step_of_fetchWord {s : State} (hs : s.fault = none) {w : Word} (hw : s.fetchWord = some w) :
    step s = exec (decodeWord w) (s.advance w) := by
  rw [step_eq, hs, hw]
  rfl

/-- Setting pc back to where the fetch was undoes the advance. -/
theorem State.setPc_advance (s : State) (w : Word) : (s.advance w).setPc s.pc = { s with opcode := w } := rfl

/-- A Cycle() from a parked state fetches a word, and puts it into `opcode`. -/
theorem step_of_parked {s : State} (h : Parked s) :
    ∃ w, s.fetchWord = some w ∧ step s = .next { s with opcode := w } := by
  obtain ⟨hs, nnn, hnext, htarget⟩ := h
  obtain ⟨w, hw, hdecode⟩ := State.nextInstr_eq_some.1 hnext
  refine ⟨w, hw, ?_⟩
  calc
    step s = exec (.op1nnn nnn) (s.advance w) := hdecode ▸ step_of_fetchWord hs hw
    _ = .next ((s.advance w).setPc (zextAddr nnn)) := rfl
    _ = .next { s with opcode := w } := by rw [htarget, State.setPc_advance]

/-- So does a Cycle() from a polling state. -/
theorem step_of_polling {s : State} (h : Polling s) :
    ∃ w, s.fetchWord = some w ∧ step s = .next { s with opcode := w } := by
  obtain ⟨hs, ⟨x, hnext⟩, hkeys⟩ := h
  obtain ⟨w, hw, hdecode⟩ := State.nextInstr_eq_some.1 hnext
  have hscan : (s.advance w).firstPressed = none := State.firstPressed_eq_none.2 hkeys
  have hback : (s.advance w).pc - 2 = s.pc := BitVec.add_sub_cancel s.pc 2
  refine ⟨w, hw, ?_⟩
  calc
    step s = exec (.opFx0A x) (s.advance w) := hdecode ▸ step_of_fetchWord hs hw
    _ = .next ((s.advance w).setPc ((s.advance w).pc - 2)) := exec_opFx0A_of_none_pressed x hscan
    _ = .next { s with opcode := w } := by rw [hback, State.setPc_advance]

/-- Settles O60: neither state is defined by `opcode`, so each is left as it was; and the second Cycle() from a parked
state fetches the same word. -/
theorem parkedAndPollingStatesStay : Obligations.ParkedAndPollingStatesStay := by
  intro s
  refine ⟨fun h => ?parked, fun h => ?polling⟩
  case parked =>
    obtain ⟨w, hw, hstep⟩ := step_of_parked h
    have hparked : Parked { s with opcode := w } := h
    obtain ⟨w', hw', hstep'⟩ := step_of_parked hparked
    obtain rfl : w = w' := Option.some.inj (hw.symm.trans hw')
    exact ⟨_, hstep, hw.symm, onlyChanges_opcode s w, hparked, hstep'⟩
  case polling =>
    obtain ⟨w, hw, hstep⟩ := step_of_polling h
    exact ⟨_, hstep, hw.symm, onlyChanges_opcode s w, h⟩

end Sys2Proof.Machine
end
